-- ==== Sys2Proof/Word.lean ====
section
/-!
DEFINITION. The word types of the engine (00_scope.md R7, R9): every value is unsigned.
-/

namespace Sys2Proof

/-- An 8-bit value: a general register, a timer, a memory byte, a pixel cell. -/
abbrev Byte := BitVec 8

/-- A 16-bit value: PC, I, a stack slot, an instruction word. -/
abbrev Word := BitVec 16

/-- A 4-bit field of an instruction word. -/
abbrev Nibble := BitVec 4

/-- A register index 0..15 (10_state.md R30). -/
abbrev RegIdx := BitVec 4

/-- The 12-bit address field `nnn` (30_encoding.md R101). -/
abbrev Addr12 := BitVec 12

/-- VF, the general register that is also the flag register (10_state.md R31). -/
abbrev vf : RegIdx := 0xF#4

/-- The number of bytes of memory (00_scope.md R7, `MEM_SIZE`). -/
abbrev memSize : Nat := 4096

/-- Where programs are loaded and where PC starts (00_scope.md R7, `PROGRAM_BASE`). -/
abbrev programBase : Nat := 0x200

/-- Where the fontset lies (00_scope.md R7, `FONT_BASE`). -/
abbrev fontBase : Nat := 0x000

end Sys2Proof
end

