-- ==== Sys2Proof/Config.lean ====
section
/-!
DEFINITION. What an implementation fixes: the five named parameters of 00_scope.md R8.
Four are the fields of `Params`; every definition of the model that depends on one takes it as an
argument, and the machine itself uses the spec's defaults, `Config.params` (log 5).
The fifth, `RNG`, is a free draw: the opaque constant `randomByte`, which has no body (log 1).
-/

namespace Sys2Proof.Config

/-- `SPRITE_EDGE` (00_scope.md R8, D27): what happens to a sprite pixel outside the grid. -/
inductive SpriteEdge where
  /-- It comes back at the opposite edge: DOC0's mandate, the default. -/
  | wrap
  /-- It is not drawn: the alternative DOC0 §9 allows. -/
  | clip
  deriving DecidableEq, Repr

/-- The parameters of 00_scope.md R8 that have a value. -/
structure Params where
  /-- `ZERO_FAMILY_STRICT` (D2): whether family 0 decodes only 0x00E0 and 0x00EE. -/
  zeroFamilyStrict : Bool
  /-- `SPRITE_EDGE` (D27). -/
  spriteEdge : SpriteEdge
  /-- `KEY_SELECT` (D7): the key `LD Vx,K` stores, given the pressed keys in rising order as the
  first one and the rest of them (never an empty set). -/
  keySelect : Nibble → List Nibble → Nibble
  /-- `FONT` (D4): the 80 bytes copied to 0x000 by `initialize`. -/
  font : Vector Byte 80

/-- `KEY_SELECT` must pick one of the keys it is given (92_eei_decisions.md, the last table). -/
def Params.Lawful (p : Params) : Prop :=
  ∀ k ks, p.keySelect k ks ∈ k :: ks

/-- The standard CHIP-8 font, glyph `d` at `5*d` (70_reset_and_hazards.md R602, G1). PRESUMED: the
spec takes the byte values from general knowledge; unsafe for a claim about glyph pixels (log 4). -/
def standardFont : Vector Byte 80 := #v[
  0xF0, 0x90, 0x90, 0x90, 0xF0,
  0x20, 0x60, 0x20, 0x20, 0x70,
  0xF0, 0x10, 0xF0, 0x80, 0xF0,
  0xF0, 0x10, 0xF0, 0x10, 0xF0,
  0x90, 0x90, 0xF0, 0x10, 0x10,
  0xF0, 0x80, 0xF0, 0x10, 0xF0,
  0xF0, 0x80, 0xF0, 0x90, 0xF0,
  0xF0, 0x10, 0x20, 0x40, 0x40,
  0xF0, 0x90, 0xF0, 0x90, 0xF0,
  0xF0, 0x90, 0xF0, 0x10, 0xF0,
  0xF0, 0x90, 0xF0, 0x90, 0x90,
  0xE0, 0x90, 0xE0, 0x90, 0xE0,
  0xF0, 0x80, 0x80, 0x80, 0xF0,
  0xE0, 0x90, 0x90, 0x90, 0xE0,
  0xF0, 0x80, 0xF0, 0x80, 0xF0,
  0xF0, 0x80, 0xF0, 0x80, 0x80]

/-- The default of `KEY_SELECT`: the lowest-numbered pressed key (D7). -/
def lowestKey (k : Nibble) (_ : List Nibble) : Nibble := k

/-- The spec's default parameters (00_scope.md R8). -/
def params : Params where
  zeroFamilyStrict := false
  spriteEdge := .wrap
  keySelect := lowestKey
  font := standardFont

/-- The byte the random source gives at its draw number `draws` after being seeded with `seed`
(`RNG`, D8, U10): a free value in 0..255 under no law. DESIGN CHOICE: its form (log 1). -/
opaque randomByte (seed draws : Nat) : Byte

end Sys2Proof.Config
end

