-- ==== Sys2Proof/Syntax.lean ====
section
/-!
DEFINITION. The instruction set: one constructor per row of spec/opcode_table.json (30_encoding.md
R105), in the table's order. A constructor carries every bit its row's mask does not check: the
fields the instruction uses, and the bits it ignores (R107: the middle byte `mid` of CLS and RET,
the `y` of SHR and SHL), because a failure records the whole word (60_exceptions.md R502).
-/

namespace Sys2Proof

/-- The 34 instructions of the base CHIP-8 set (00_scope.md R2). -/
inductive Instr where
  /-- `0··0` CLS; `mid` is w[11:4]. -/
  | cls (mid : Byte)
  /-- `0··E` RET; `mid` is w[11:4]. -/
  | ret (mid : Byte)
  /-- `1nnn` JP nnn. -/
  | jp (nnn : Addr12)
  /-- `2nnn` CALL nnn. -/
  | call (nnn : Addr12)
  /-- `3xkk` SE Vx,kk. -/
  | seImm (x : RegIdx) (kk : Byte)
  /-- `4xkk` SNE Vx,kk. -/
  | sneImm (x : RegIdx) (kk : Byte)
  /-- `5xy0` SE Vx,Vy. -/
  | seReg (x y : RegIdx)
  /-- `6xkk` LD Vx,kk. -/
  | ldImm (x : RegIdx) (kk : Byte)
  /-- `7xkk` ADD Vx,kk. -/
  | addImm (x : RegIdx) (kk : Byte)
  /-- `8xy0` LD Vx,Vy. -/
  | ldReg (x y : RegIdx)
  /-- `8xy1` OR Vx,Vy. -/
  | orReg (x y : RegIdx)
  /-- `8xy2` AND Vx,Vy. -/
  | andReg (x y : RegIdx)
  /-- `8xy3` XOR Vx,Vy. -/
  | xorReg (x y : RegIdx)
  /-- `8xy4` ADD Vx,Vy. -/
  | addReg (x y : RegIdx)
  /-- `8xy5` SUB Vx,Vy. -/
  | subReg (x y : RegIdx)
  /-- `8xy6` SHR Vx; `y` is ignored. -/
  | shr (x y : RegIdx)
  /-- `8xy7` SUBN Vx,Vy. -/
  | subnReg (x y : RegIdx)
  /-- `8xyE` SHL Vx; `y` is ignored. -/
  | shl (x y : RegIdx)
  /-- `9xy0` SNE Vx,Vy. -/
  | sneReg (x y : RegIdx)
  /-- `Annn` LD I,nnn. -/
  | ldI (nnn : Addr12)
  /-- `Bnnn` JP V0,nnn. -/
  | jpV0 (nnn : Addr12)
  /-- `Cxkk` RND Vx,kk. -/
  | rnd (x : RegIdx) (kk : Byte)
  /-- `Dxyn` DRW Vx,Vy,n. -/
  | drw (x y : RegIdx) (n : Nibble)
  /-- `Ex9E` SKP Vx. -/
  | skp (x : RegIdx)
  /-- `ExA1` SKNP Vx. -/
  | sknp (x : RegIdx)
  /-- `Fx07` LD Vx,DT. -/
  | ldVxDT (x : RegIdx)
  /-- `Fx0A` LD Vx,K. -/
  | ldVxK (x : RegIdx)
  /-- `Fx15` LD DT,Vx. -/
  | ldDTVx (x : RegIdx)
  /-- `Fx18` LD ST,Vx. -/
  | ldSTVx (x : RegIdx)
  /-- `Fx1E` ADD I,Vx. -/
  | addIVx (x : RegIdx)
  /-- `Fx29` LD F,Vx. -/
  | ldFVx (x : RegIdx)
  /-- `Fx33` LD B,Vx. -/
  | ldBVx (x : RegIdx)
  /-- `Fx55` LD [I],Vx. -/
  | storeRegs (x : RegIdx)
  /-- `Fx65` LD Vx,[I]. -/
  | loadRegs (x : RegIdx)
  deriving DecidableEq, Repr

end Sys2Proof
end

