-- ==== Sys2Proof/WellFormed.lean ====
section
/-!
DEFINITION. Which terms of `Instr` are instructions. Every field is a bit vector of the width the
encoding gives it (30_encoding.md R101), so the only thing left to check is R106: with
`ZERO_FAMILY_STRICT` = true the middle byte of CLS and RET is 0x0E.
-/

namespace Sys2Proof

/-- The instruction's word is defined under this setting of `ZERO_FAMILY_STRICT` (R106, R109). -/
def Instr.wellFormedWith (strict : Bool) : Instr → Bool
  | .cls mid => !strict || mid == 0x0E#8
  | .ret mid => !strict || mid == 0x0E#8
  | .jp _ => true
  | .call _ => true
  | .seImm _ _ => true
  | .sneImm _ _ => true
  | .seReg _ _ => true
  | .ldImm _ _ => true
  | .addImm _ _ => true
  | .ldReg _ _ => true
  | .orReg _ _ => true
  | .andReg _ _ => true
  | .xorReg _ _ => true
  | .addReg _ _ => true
  | .subReg _ _ => true
  | .shr _ _ => true
  | .subnReg _ _ => true
  | .shl _ _ => true
  | .sneReg _ _ => true
  | .ldI _ => true
  | .jpV0 _ => true
  | .rnd _ _ => true
  | .drw _ _ _ => true
  | .skp _ => true
  | .sknp _ => true
  | .ldVxDT _ => true
  | .ldVxK _ => true
  | .ldDTVx _ => true
  | .ldSTVx _ => true
  | .addIVx _ => true
  | .ldFVx _ => true
  | .ldBVx _ => true
  | .storeRegs _ => true
  | .loadRegs _ => true

/-- Well-formed under the machine's own parameters (`Config.params`). -/
def Instr.wellFormed (i : Instr) : Bool :=
  i.wellFormedWith Config.params.zeroFamilyStrict

end Sys2Proof
end

