-- ==== Sys2Proof/Decode.lean ====
section
/-!
DEFINITION. The decoder (30_encoding.md R104), total on any word and on any bytes and rejecting by
name (R109, R113); after it the encoder, the opcode map of R105 as data, and the host's
`decodeTableWord`.
-/

namespace Sys2Proof

/-! ## Fields of an instruction word (R101; the positions are G2's, log 6) -/

/-- The family, w[15:12]. -/
def fieldFamily (w : Word) : Nibble := w.extractLsb' 12 4

/-- `x`, w[11:8]. -/
def fieldX (w : Word) : RegIdx := w.extractLsb' 8 4

/-- `y`, w[7:4]. -/
def fieldY (w : Word) : RegIdx := w.extractLsb' 4 4

/-- `n`, w[3:0]. -/
def fieldN (w : Word) : Nibble := w.extractLsb' 0 4

/-- `kk`, w[7:0]. -/
def fieldKK (w : Word) : Byte := w.extractLsb' 0 8

/-- `nnn`, w[11:0]. -/
def fieldNNN (w : Word) : Addr12 := w.extractLsb' 0 12

/-- w[11:4], the bits CLS and RET do not examine by default (R106). -/
def fieldMid (w : Word) : Byte := w.extractLsb' 4 8

/-- Why a word or a run of bytes is no instruction: one name per class of R109's list. -/
inductive Undefined where
  /-- Fewer than two bytes: no whole word (R100). -/
  | truncated
  /-- Family 0, low nibble neither 0 nor E; with `ZERO_FAMILY_STRICT`, any but 0x00E0 and 0x00EE. -/
  | family0 (w : Word)
  /-- `5xyN` with N ≠ 0 (R108). -/
  | family5 (w : Word)
  /-- `8xyN` with N outside 0..7 and E. -/
  | family8 (w : Word)
  /-- `9xyN` with N ≠ 0 (R108). -/
  | family9 (w : Word)
  /-- `ExKK` with KK neither 9E nor A1. -/
  | familyE (w : Word)
  /-- `FxKK` with KK none of the nine sub-opcodes. -/
  | familyF (w : Word)
  deriving DecidableEq, Repr

/-- Family 0 (R106). -/
def decodeFamily0 (strict : Bool) (w : Word) : Except Undefined Instr :=
  if strict && fieldMid w != 0x0E#8 then .error (.family0 w)
  else match fieldN w with
    | 0x0#4 => .ok (.cls (fieldMid w))
    | 0xE#4 => .ok (.ret (fieldMid w))
    | _ => .error (.family0 w)

/-- Family 8 (R104): the sub-opcode is w[3:0]. -/
def decodeFamily8 (w : Word) : Except Undefined Instr :=
  match fieldN w with
  | 0x0#4 => .ok (.ldReg (fieldX w) (fieldY w))
  | 0x1#4 => .ok (.orReg (fieldX w) (fieldY w))
  | 0x2#4 => .ok (.andReg (fieldX w) (fieldY w))
  | 0x3#4 => .ok (.xorReg (fieldX w) (fieldY w))
  | 0x4#4 => .ok (.addReg (fieldX w) (fieldY w))
  | 0x5#4 => .ok (.subReg (fieldX w) (fieldY w))
  | 0x6#4 => .ok (.shr (fieldX w) (fieldY w))
  | 0x7#4 => .ok (.subnReg (fieldX w) (fieldY w))
  | 0xE#4 => .ok (.shl (fieldX w) (fieldY w))
  | _ => .error (.family8 w)

/-- Family E (R104): the sub-opcode is w[7:0]. -/
def decodeFamilyE (w : Word) : Except Undefined Instr :=
  match fieldKK w with
  | 0x9E#8 => .ok (.skp (fieldX w))
  | 0xA1#8 => .ok (.sknp (fieldX w))
  | _ => .error (.familyE w)

/-- Family F (R104): the sub-opcode is w[7:0]. -/
def decodeFamilyF (w : Word) : Except Undefined Instr :=
  match fieldKK w with
  | 0x07#8 => .ok (.ldVxDT (fieldX w))
  | 0x0A#8 => .ok (.ldVxK (fieldX w))
  | 0x15#8 => .ok (.ldDTVx (fieldX w))
  | 0x18#8 => .ok (.ldSTVx (fieldX w))
  | 0x1E#8 => .ok (.addIVx (fieldX w))
  | 0x29#8 => .ok (.ldFVx (fieldX w))
  | 0x33#8 => .ok (.ldBVx (fieldX w))
  | 0x55#8 => .ok (.storeRegs (fieldX w))
  | 0x65#8 => .ok (.loadRegs (fieldX w))
  | _ => .error (.familyF w)

/-- The decode procedure of R104, for either setting of `ZERO_FAMILY_STRICT`. -/
def decodeWith (strict : Bool) (w : Word) : Except Undefined Instr :=
  match fieldFamily w with
  | 0x0#4 => decodeFamily0 strict w
  | 0x1#4 => .ok (.jp (fieldNNN w))
  | 0x2#4 => .ok (.call (fieldNNN w))
  | 0x3#4 => .ok (.seImm (fieldX w) (fieldKK w))
  | 0x4#4 => .ok (.sneImm (fieldX w) (fieldKK w))
  | 0x5#4 => if fieldN w = 0x0#4 then .ok (.seReg (fieldX w) (fieldY w)) else .error (.family5 w)
  | 0x6#4 => .ok (.ldImm (fieldX w) (fieldKK w))
  | 0x7#4 => .ok (.addImm (fieldX w) (fieldKK w))
  | 0x8#4 => decodeFamily8 w
  | 0x9#4 => if fieldN w = 0x0#4 then .ok (.sneReg (fieldX w) (fieldY w)) else .error (.family9 w)
  | 0xA#4 => .ok (.ldI (fieldNNN w))
  | 0xB#4 => .ok (.jpV0 (fieldNNN w))
  | 0xC#4 => .ok (.rnd (fieldX w) (fieldKK w))
  | 0xD#4 => .ok (.drw (fieldX w) (fieldY w) (fieldN w))
  | 0xE#4 => decodeFamilyE w
  | _ => decodeFamilyF w  -- family F, the only one left

/-- The machine's decoder: R104 under the machine's own parameters. -/
def decode (w : Word) : Except Undefined Instr :=
  decodeWith Config.params.zeroFamilyStrict w

/-- A word from its two bytes, the first at the lower address: big-endian (20_memory.md R72). -/
def wordOfBytes (hi lo : Byte) : Word := hi ++ lo

/-- Decode the instruction at the head of a run of bytes; answer it with the bytes after it. -/
def decodeBytes : List Byte → Except Undefined (Instr × List Byte)
  | hi :: lo :: rest =>
    match decode (wordOfBytes hi lo) with
    | .ok i => .ok (i, rest)
    | .error e => .error e
  | _ => .error .truncated

/-! ## The encoder, from the patterns of R105 -/

/-- `ffff nnnn nnnn nnnn` (R102, format NNN). -/
def packNNN (f : Nibble) (nnn : Addr12) : Word := f ++ nnn

/-- `ffff xxxx kkkk kkkk` (R102, formats XKK and XOP). -/
def packXKK (f : Nibble) (x : RegIdx) (kk : Byte) : Word := f ++ (x ++ kk : BitVec 12)

/-- `ffff xxxx yyyy nnnn` (R102, formats XY0, XYS and XYN). -/
def packXYN (f : Nibble) (x y : RegIdx) (n : Nibble) : Word := f ++ (x ++ (y ++ n : BitVec 8) : BitVec 12)

/-- `0000 mmmm mmmm oooo` (R102, format OP0). -/
def packOP0 (mid : Byte) (o : Nibble) : Word := 0x0#4 ++ (mid ++ o : BitVec 12)

/-- The word of an instruction (R105). -/
def encode : Instr → Word
  | .cls mid => packOP0 mid 0x0#4
  | .ret mid => packOP0 mid 0xE#4
  | .jp nnn => packNNN 0x1#4 nnn
  | .call nnn => packNNN 0x2#4 nnn
  | .seImm x kk => packXKK 0x3#4 x kk
  | .sneImm x kk => packXKK 0x4#4 x kk
  | .seReg x y => packXYN 0x5#4 x y 0x0#4
  | .ldImm x kk => packXKK 0x6#4 x kk
  | .addImm x kk => packXKK 0x7#4 x kk
  | .ldReg x y => packXYN 0x8#4 x y 0x0#4
  | .orReg x y => packXYN 0x8#4 x y 0x1#4
  | .andReg x y => packXYN 0x8#4 x y 0x2#4
  | .xorReg x y => packXYN 0x8#4 x y 0x3#4
  | .addReg x y => packXYN 0x8#4 x y 0x4#4
  | .subReg x y => packXYN 0x8#4 x y 0x5#4
  | .shr x y => packXYN 0x8#4 x y 0x6#4
  | .subnReg x y => packXYN 0x8#4 x y 0x7#4
  | .shl x y => packXYN 0x8#4 x y 0xE#4
  | .sneReg x y => packXYN 0x9#4 x y 0x0#4
  | .ldI nnn => packNNN 0xA#4 nnn
  | .jpV0 nnn => packNNN 0xB#4 nnn
  | .rnd x kk => packXKK 0xC#4 x kk
  | .drw x y n => packXYN 0xD#4 x y n
  | .skp x => packXKK 0xE#4 x 0x9E#8
  | .sknp x => packXKK 0xE#4 x 0xA1#8
  | .ldVxDT x => packXKK 0xF#4 x 0x07#8
  | .ldVxK x => packXKK 0xF#4 x 0x0A#8
  | .ldDTVx x => packXKK 0xF#4 x 0x15#8
  | .ldSTVx x => packXKK 0xF#4 x 0x18#8
  | .addIVx x => packXKK 0xF#4 x 0x1E#8
  | .ldFVx x => packXKK 0xF#4 x 0x29#8
  | .ldBVx x => packXKK 0xF#4 x 0x33#8
  | .storeRegs x => packXKK 0xF#4 x 0x55#8
  | .loadRegs x => packXKK 0xF#4 x 0x65#8

/-- The two bytes of an instruction, as they lie in memory (R72). -/
def encodeBytes (i : Instr) : List Byte :=
  [(encode i).extractLsb' 8 8, (encode i).extractLsb' 0 8]

/-! ## The opcode map as data -/

/-- The rows of R105 in the table's order, each (mask, match). -/
def opcodeRows : List (Word × Word) :=
  [(0xF00F, 0x0000), (0xF00F, 0x000E), (0xF000, 0x1000), (0xF000, 0x2000), (0xF000, 0x3000),
   (0xF000, 0x4000), (0xF00F, 0x5000), (0xF000, 0x6000), (0xF000, 0x7000), (0xF00F, 0x8000),
   (0xF00F, 0x8001), (0xF00F, 0x8002), (0xF00F, 0x8003), (0xF00F, 0x8004), (0xF00F, 0x8005),
   (0xF00F, 0x8006), (0xF00F, 0x8007), (0xF00F, 0x800E)] ++
  [(0xF00F, 0x9000), (0xF000, 0xA000), (0xF000, 0xB000), (0xF000, 0xC000), (0xF000, 0xD000),
   (0xF0FF, 0xE09E), (0xF0FF, 0xE0A1), (0xF0FF, 0xF007), (0xF0FF, 0xF00A), (0xF0FF, 0xF015),
   (0xF0FF, 0xF018), (0xF0FF, 0xF01E), (0xF0FF, 0xF029), (0xF0FF, 0xF033), (0xF0FF, 0xF055),
   (0xF0FF, 0xF065)]

/-- The position in `opcodeRows` of an instruction's row. -/
def Instr.row : Instr → Nat
  | .cls _ => 0
  | .ret _ => 1
  | .jp _ => 2
  | .call _ => 3
  | .seImm _ _ => 4
  | .sneImm _ _ => 5
  | .seReg _ _ => 6
  | .ldImm _ _ => 7
  | .addImm _ _ => 8
  | .ldReg _ _ => 9
  | .orReg _ _ => 10
  | .andReg _ _ => 11
  | .xorReg _ _ => 12
  | .addReg _ _ => 13
  | .subReg _ _ => 14
  | .shr _ _ => 15
  | .subnReg _ _ => 16
  | .shl _ _ => 17
  | .sneReg _ _ => 18
  | .ldI _ => 19
  | .jpV0 _ => 20
  | .rnd _ _ => 21
  | .drw _ _ _ => 22
  | .skp _ => 23
  | .sknp _ => 24
  | .ldVxDT _ => 25
  | .ldVxK _ => 26
  | .ldDTVx _ => 27
  | .ldSTVx _ => 28
  | .addIVx _ => 29
  | .ldFVx _ => 30
  | .ldBVx _ => 31
  | .storeRegs _ => 32
  | .loadRegs _ => 33

/-- The two bytes of a table word: the engine stores w[15:8] at the lower address (R72). -/
def tableWordBytes (nbits w : Nat) : List Byte :=
  let word : Word := BitVec.ofNat 16 (w % 2 ^ nbits)
  [word.extractLsb' 8 8, word.extractLsb' 0 8]

/-- For the host: what the decoder reads from the table's `nbits` bits `w` (bits above `nbits` are 0). -/
def decodeTableWord (nbits w : Nat) : Option Instr :=
  match decodeBytes (tableWordBytes nbits w) with
  | .ok (i, _) => some i
  | .error _ => none

end Sys2Proof
end

