-- ==== Sys2Proof/Machine/State.lean ====
section
/-!
DEFINITION. The state of the engine (spec/10_state.md), the reasons a step can stop
(60_exceptions.md R502), and the state after reset (R47, R600).
-/

namespace Sys2Proof.Machine

/-- The display buffer (10_state.md R39): 32 rows of 64 columns, one byte per pixel. -/
abbrev Display := Vector (Vector Byte 64) 32

/-- The random source (10_state.md R43). The spec gives its seeding and its draws and not its
state: these two counts are the model's own, so that each draw is a fresh free value (log 1). -/
structure RandomSource where
  /-- The argument of the last `initialize` (70_reset_and_hazards.md R600); its width is OPEN. -/
  seed : Nat
  /-- How many bytes have been drawn since power-on; no `initialize` sets it back. -/
  draws : Nat
  deriving DecidableEq, Repr

/-- All the state the spec gives the engine. -/
structure State where
  /-- V0–VF (R30); VF is also the flag register (R31). -/
  v : Vector Byte 16
  /-- I, the index register (R32): all 16 bits are kept. -/
  i : Word
  /-- PC (R33): during an instruction, the address its word was fetched from. -/
  pc : Word
  /-- SP (R35): the number of occupied slots, 0..16; the spec's 17..31 are unreachable (log 3). -/
  sp : Fin 17
  /-- The return stack (R34): 16 slots of 16 bits. -/
  stack : Vector Word 16
  /-- DT, the delay timer (R36). -/
  dt : Byte
  /-- ST, the sound timer (R37). -/
  st : Byte
  /-- Memory (R38): the bytes that differ from their reset contents, by rising address. -/
  mem : List Host.Cell
  /-- The display buffer (R39). -/
  display : Display
  /-- The redraw flag (R40). -/
  redraw : Bool
  /-- The keypad (R41): key `k`'s state, true when pressed. -/
  keypad : Vector Bool 16
  /-- The random source (R43). -/
  rng : RandomSource
  /-- The `beep` of the last completed step's `Ok(beep)` (R149, R356), latched (log 2). -/
  beep : Bool
  deriving DecidableEq, Repr

/-- The failures of a step (60_exceptions.md R502). A failed step changes no state (R501), so a
fault carries only what R502 records. Each is safe: it stops exactly where the spec fails. -/
inductive Fault where
  /-- Code 1. Raised by the step cycle when the fetched word decodes to no instruction
  (30_encoding.md R113). Safe. -/
  | unknownOpcode (pc word : Word)
  /-- Code 2. Raised by CALL at SP = 16 (41_control_flow.md R203). Safe. -/
  | stackOverflow (pc word : Word)
  /-- Code 3. Raised by RET at SP = 0 (41_control_flow.md R201). Safe. -/
  | stackUnderflow (pc word : Word)
  /-- Code 4. Raised by the fetch (40_step_cycle.md R141; no word) and by DRW, LD B,Vx, LD [I],Vx
  and LD Vx,[I] (20_memory.md R75); `addr` is the lowest offending byte address. Safe. -/
  | addressOutOfRange (pc : Word) (word : Option Word) (addr : Nat)
  /-- Code 5. Raised by SKP and SKNP with V[x] > 0xF (45_input.md R380); `key` is V[x]. Safe. -/
  | invalidKeyIndex (pc word : Word) (key : Byte)
  deriving DecidableEq, Repr

/-- Refusals. -/
inductive Refusal where
  /-- An instruction with no meaning in the model yet: raised by no arm of `exec`. Safe. -/
  | notModelled (mnemonic : String)
  deriving DecidableEq, Repr

/-- What executing an instruction, or a step, answers. -/
abbrev Result := Host.Outcome State Fault Refusal

/-- The state `initialize` leaves (R47, R600), under the default `FONT`: memory lists nothing,
because an unlisted address reads as its reset contents. The seed and the draw count are log 1's,
the latched beep log 2's. -/
def State.reset : State where
  v := Vector.replicate 16 0x00#8
  i := 0x0000#16
  pc := 0x0200#16
  sp := 0
  stack := Vector.replicate 16 0x0000#16
  dt := 0x00#8
  st := 0x00#8
  mem := []
  display := Vector.replicate 32 (Vector.replicate 64 0x00#8)
  redraw := false
  keypad := Vector.replicate 16 false
  rng := { seed := 0, draws := 0 }
  beep := false

end Sys2Proof.Machine
end

