-- ==== Sys2Proof/Machine/Ops.lean ====
section
/-!
DEFINITION. The named operations over memory, registers, stack, timers and the display, raising a
failure, and the single-step cycle (spec/20_memory.md, 40_step_cycle.md, 44_timer.md).
-/

namespace Sys2Proof.Machine

/-! ## Memory (20_memory.md) -/

/-- The reset contents of an address, which is what an address that is not listed reads as: the
font below 0x050, zero elsewhere (R47, R71). -/
def Memory.initial (a : Nat) : Byte := (Config.params.font[a]?).getD 0x00#8

/-- The listed byte at an address, if any. -/
def Memory.lookup : List Host.Cell → Nat → Option Byte
  | [], _ => none
  | (k, b) :: m, a => if k = a then some b else Memory.lookup m a

/-- `MemRead(a, 1)` (00_scope.md R10). -/
def Memory.read (m : List Host.Cell) (a : Nat) : Byte :=
  (Memory.lookup m a).getD (Memory.initial a)

/-- List a byte at an address, keeping addresses rising. -/
def Memory.insert (a : Nat) (b : Byte) : List Host.Cell → List Host.Cell
  | [] => [(a, b)]
  | (k, c) :: m =>
    if a < k then (a, b) :: (k, c) :: m
    else if k = a then (a, b) :: m
    else (k, c) :: Memory.insert a b m

/-- Take an address off the list: it reads as its reset contents again. -/
def Memory.remove (a : Nat) (m : List Host.Cell) : List Host.Cell :=
  m.filter (fun cell => cell.1 != a)

/-- `MemWrite(a, 1, b)` (00_scope.md R10), keeping the canonical form. -/
def Memory.write (m : List Host.Cell) (a : Nat) (b : Byte) : List Host.Cell :=
  if b = Memory.initial a then Memory.remove a m else Memory.insert a b m

/-- The canonical form: addresses strictly rising, each in memory, no byte equal to what the
address reads as unlisted. -/
abbrev Memory.wf (m : List Host.Cell) : Prop :=
  m.Pairwise (fun c d => c.1 < d.1) ∧ ∀ c ∈ m, c.1 < memSize ∧ c.2 ≠ Memory.initial c.1

/-- The `n` bytes from address `a` on. -/
def Memory.readBytes (m : List Host.Cell) (a n : Nat) : List Byte :=
  (List.range n).map (fun k => Memory.read m (a + k))

/-- Store bytes from address `a` on, the lowest address first. -/
def Memory.writeBytes (m : List Host.Cell) (a : Nat) : List Byte → List Host.Cell
  | [] => m
  | b :: bs => Memory.writeBytes (Memory.write m a b) (a + 1) bs

/-- The lowest address ≥ 4096 among the `n` addresses from `a` on, if there is one: addresses are
natural numbers, never wrapped or masked (R75; `Check` of 43_memory_transfer.md R300). -/
def lowestBadAddress (a n : Nat) : Option Nat :=
  if 0 < n ∧ memSize ≤ a + n - 1 then some (max a memSize) else none

/-! ## Raising a failure (60_exceptions.md R500, R501) -/

/-- `raise`: the one way a step fails. It answers the failure and no state, since a failed step
leaves every piece of state as it was; there is no trap to take and nothing to return from
(R500, R504, R506). -/
def raise (f : Fault) : Result := .fault f

/-- Perform an access of the `n` bytes from `a` on by the instruction whose word is `word`, or
raise `AddressOutOfRange` before any of it (R75). -/
def withAccess (s : State) (word : Word) (a n : Nat) (access : Result) : Result :=
  match lowestBadAddress a n with
  | some bad => raise (.addressOutOfRange s.pc (some word) bad)
  | none => access

/-! ## Registers (10_state.md) -/

/-- `V[r]`. -/
def State.readV (s : State) (r : RegIdx) : Byte := s.v.get r.toFin

/-- `V[r] <- b`. -/
def State.writeV (s : State) (r : RegIdx) (b : Byte) : State :=
  { s with v := s.v.set r.toNat b r.isLt }

/-- `I <- w`. -/
def State.setI (s : State) (w : Word) : State := { s with i := w }

/-- `pc <- target` (00_scope.md R10). -/
def State.setPc (s : State) (target : Word) : State := { s with pc := target }

/-- `DT <- b`. -/
def State.setDT (s : State) (b : Byte) : State := { s with dt := b }

/-- `ST <- b`. -/
def State.setST (s : State) (b : Byte) : State := { s with st := b }

/-- Replace memory. -/
def State.setMem (s : State) (m : List Host.Cell) : State := { s with mem := m }

/-- Replace the display buffer. -/
def State.setDisplay (s : State) (d : Display) : State := { s with display := d }

/-- `redraw <- b` (R40). -/
def State.setRedraw (s : State) (b : Bool) : State := { s with redraw := b }

/-- Latch the step's `beep` result (log 2). -/
def State.setBeep (s : State) (b : Bool) : State := { s with beep := b }

/-- Replace the keypad levels: only `initialize` and the host do (R41). -/
def State.setKeypad (s : State) (k : Vector Bool 16) : State := { s with keypad := k }

/-- Replace the random source. -/
def State.setRng (s : State) (r : RandomSource) : State := { s with rng := r }

/-- `next`: `pc <- pc + 2` (00_scope.md R10; the 16-bit register keeps the low 16 bits, log 7). -/
def State.advance (s : State) : State := s.setPc (s.pc + 2#16)

/-- `skip`: `pc <- pc + 4` (00_scope.md R10). -/
def State.skip (s : State) : State := s.setPc (s.pc + 4#16)

/-- `if cond then skip else next` (41_control_flow.md R200). -/
def State.skipIf (s : State) (cond : Bool) : State := if cond then s.skip else s.advance

/-- Write registers V[k], V[k+1], … in order, from a list of bytes. -/
def State.writeRegs (s : State) (k : Nat) : List Byte → State
  | [] => s
  | b :: bs => State.writeRegs (s.writeV (BitVec.ofNat 4 k) b) (k + 1) bs

/-- The bytes of V0..Vx in order. -/
def State.lowRegs (s : State) (x : RegIdx) : List Byte :=
  (List.range (x.toNat + 1)).map (fun k => s.readV (BitVec.ofNat 4 k))

/-! ## The return stack (10_state.md R34, R35) -/

/-- Push PC: `stack[sp] <- pc; sp <- sp + 1`, or nothing to push into at SP = 16. -/
def State.pushPc (s : State) : Option State :=
  if h : s.sp.val < 16 then
    some { s with stack := s.stack.set s.sp.val s.pc h, sp := ⟨s.sp.val + 1, Nat.succ_lt_succ h⟩ }
  else none

/-- Pop: `sp <- sp - 1`, with the value of the slot it uncovers, which keeps it (D13); nothing to
pop at SP = 0. -/
def State.pop (s : State) : Option (State × Word) :=
  if h : 0 < s.sp.val then
    some ({ s with sp := ⟨s.sp.val - 1, by omega⟩ }, s.stack[s.sp.val - 1]'(by omega))
  else none

/-! ## The random source (10_state.md R43) -/

/-- The byte the next draw gives: a free value (log 1). -/
def State.nextRandom (s : State) : Byte := Config.randomByte s.rng.seed s.rng.draws

/-- Count one draw. -/
def State.countDraw (s : State) : State :=
  s.setRng { seed := s.rng.seed, draws := s.rng.draws + 1 }

/-! ## The keypad (10_state.md R41) -/

/-- `Key(k)`. -/
def State.key (s : State) (k : Nibble) : Bool := s.keypad.get k.toFin

/-- The pressed keys, in rising order. -/
def State.pressedKeys (s : State) : List Nibble :=
  ((List.range 16).map (BitVec.ofNat 4)).filter s.key

/-! ## The display (10_state.md R39) -/

/-- `Pixel(r, c)`. -/
def pixel (d : Display) (r : Fin 32) (c : Fin 64) : Byte := (d.get r).get c

/-- `Pixel(r, c) <- b`. -/
def setPixel (d : Display) (r : Fin 32) (c : Fin 64) (b : Byte) : Display :=
  d.set r.val ((d.get r).set c.val b c.isLt) r.isLt

/-- The clear display: every pixel 0. -/
def clearDisplay : Display := Vector.replicate 32 (Vector.replicate 64 0x00#8)

/-! ## The single-step cycle (40_step_cycle.md, 44_timer.md) -/

/-- `Fetch` (R141): two bytes, big-endian, or `AddressOutOfRange` with no word. -/
def fetch (s : State) : Except Fault Word :=
  match lowestBadAddress s.pc.toNat 2 with
  | some bad => .error (.addressOutOfRange s.pc none bad)
  | none => .ok (wordOfBytes (Memory.read s.mem s.pc.toNat) (Memory.read s.mem (s.pc.toNat + 1)))

/-- One down-counter's tick: it never passes below 0 (R354). -/
def tickDown (b : Byte) : Byte := if b = 0x00#8 then 0x00#8 else b - 1#8

/-- `TimerTick` (R354): both timers tick, and `beep` is true exactly when ST was 1 (R356). -/
def timerTick (s : State) : State :=
  ((s.setDT (tickDown s.dt)).setST (tickDown s.st)).setBeep (s.st == 0x01#8)

/-- The end of a step: `TimerTick` runs only if the instruction completed (R145, R501). -/
def completeStep : Result → Result
  | .next s => .next (timerTick s)
  | .fault f => .fault f
  | .refused r => .refused r

/-- `step()` (R140) over a decoder and an execution function: fetch, decode, execute, tick. -/
def stepCycle (dec : Word → Except Undefined Instr) (ex : Instr → State → Result) (s : State) : Result :=
  match fetch s with
  | .error f => raise f
  | .ok w =>
    match dec w with
    | .error _ => raise (.unknownOpcode s.pc w)
    | .ok i => completeStep (ex i s)

/-- For the host: the instruction's two bytes stored at PC, where the next step fetches; nothing
where the fetch itself fails for want of an address (R141). -/
def placeWord (s : State) (nbits w : Nat) : State :=
  match lowestBadAddress s.pc.toNat 2 with
  | some _ => s
  | none => s.setMem (Memory.writeBytes s.mem s.pc.toNat (tableWordBytes nbits w))

end Sys2Proof.Machine
end

