-- ==== Sys2Proof/Machine/Operands.lean ====
section
/-!
DEFINITION. Operand forms (30_encoding.md R103): zero-extension of the immediates, the address of a
font glyph, the decimal digits of a byte, the sprite's start position, and the rasterizer's pixels.
-/

namespace Sys2Proof.Machine

/-- `zext_16(nnn)` (R103). -/
def zextAddr (nnn : Addr12) : Word := nnn.setWidth 16

/-- `zext_16(b)` of a byte. -/
def zextByte (b : Byte) : Word := b.setWidth 16

/-- The address of the glyph of digit `b`: `FONT_BASE + 5 * b`, unmasked (43_memory_transfer.md
R305, D5). -/
def glyphAddress (b : Byte) : Word := BitVec.ofNat 16 (fontBase + 5 * b.toNat)

/-- The three decimal digits of a byte, hundreds first (R306). -/
def bcdDigits (b : Byte) : List Byte :=
  [BitVec.ofNat 8 (b.toNat / 100), BitVec.ofNat 8 (b.toNat / 10 % 10), BitVec.ofNat 8 (b.toNat % 10)]

/-- A byte as a keypad index, if it names one of the 16 keys (45_input.md R380). -/
def keyIndex (b : Byte) : Option Nibble :=
  if b.toNat ≤ 15 then some (b.setWidth 4) else none

/-- The column a sprite starts at: `V[x] mod 64` (46_display.md R402). -/
def startColumn (b : Byte) : Nat := b.toNat % 64

/-- The row a sprite starts at: `V[y] mod 32` (R402). -/
def startRow (b : Byte) : Nat := b.toNat % 32

/-- Bit `7 - c` of a sprite row: bit 7 is the leftmost pixel (R401). -/
def spriteBit (row : Byte) (c : Nat) : Bool := row.getLsbD (7 - c)

/-- The cell a sprite pixel at row `r` and column `c` falls on, or none if it is clipped (R401). -/
def placePixel (edge : Config.SpriteEdge) (r c : Nat) : Option (Fin 32 × Fin 64) :=
  match edge with
  | .wrap => some (⟨r % 32, Nat.mod_lt r (by decide)⟩, ⟨c % 64, Nat.mod_lt c (by decide)⟩)
  | .clip => if h : r < 32 ∧ c < 64 then some (⟨r, h.1⟩, ⟨c, h.2⟩) else none

end Sys2Proof.Machine
end

