-- ==== Sys2Proof/Machine/Flags.lean ====
section
/-!
DEFINITION. The flags VF receives (10_state.md R31) and the one order in which a flag and a result
are written (42_arith_logic.md R250, D3).
-/

namespace Sys2Proof.Machine

/-- A flag as a register value: 1 or 0 (R31). -/
def flagByte (b : Bool) : Byte := if b then 0x01#8 else 0x00#8

/-- The carry of a 9-bit sum (R255). -/
def carryFlag (a b : Byte) : Byte := flagByte (255 < a.toNat + b.toNat)

/-- The NOT-borrow of `a - b`: 1 when `a ≥ b` (R256, R258). -/
def notBorrowFlag (a b : Byte) : Byte := flagByte (b.toNat ≤ a.toNat)

/-- The bit a right shift by one drops: bit 0 (R257). -/
def shiftRightFlag (a : Byte) : Byte := flagByte (a.getLsbD 0)

/-- The bit a left shift by one drops: bit 7 (R259). -/
def shiftLeftFlag (a : Byte) : Byte := flagByte (a.getLsbD 7)

/-- Write the flag into VF and then the result into `V[x]`: for x = F the result survives (R250). -/
def State.writeFlagThenResult (s : State) (flag : Byte) (x : RegIdx) (result : Byte) : State :=
  (s.writeV vf flag).writeV x result

end Sys2Proof.Machine
end

