-- ==== Sys2Proof/Machine/ArithLogic.lean ====
section
/-!
DEFINITION. The arithmetic and logic instructions (spec/42_arith_logic.md). Byte arithmetic of bit
vectors is the spec's arithmetic mod 256 (R261).
-/

namespace Sys2Proof.Machine

/-- ADD Vx,kk (R251): no flag. -/
def execAddImm (x : RegIdx) (kk : Byte) (s : State) : Result :=
  .next (s.writeV x (s.readV x + kk)).advance

/-- OR Vx,Vy (R252): no flag. -/
def execOrReg (x y : RegIdx) (s : State) : Result :=
  .next (s.writeV x (s.readV x ||| s.readV y)).advance

/-- AND Vx,Vy (R253): no flag. -/
def execAndReg (x y : RegIdx) (s : State) : Result :=
  .next (s.writeV x (s.readV x &&& s.readV y)).advance

/-- XOR Vx,Vy (R254): no flag. -/
def execXorReg (x y : RegIdx) (s : State) : Result :=
  .next (s.writeV x (s.readV x ^^^ s.readV y)).advance

/-- ADD Vx,Vy (R255). -/
def execAddReg (x y : RegIdx) (s : State) : Result :=
  let a := s.readV x
  let b := s.readV y
  .next (s.writeFlagThenResult (carryFlag a b) x (a + b)).advance

/-- SUB Vx,Vy (R256). -/
def execSubReg (x y : RegIdx) (s : State) : Result :=
  let a := s.readV x
  let b := s.readV y
  .next (s.writeFlagThenResult (notBorrowFlag a b) x (a - b)).advance

/-- SHR Vx (R257): `y` is not read (R107). -/
def execShr (x _y : RegIdx) (s : State) : Result :=
  let a := s.readV x
  .next (s.writeFlagThenResult (shiftRightFlag a) x (a >>> 1)).advance

/-- SUBN Vx,Vy (R258). -/
def execSubnReg (x y : RegIdx) (s : State) : Result :=
  let a := s.readV x
  let b := s.readV y
  .next (s.writeFlagThenResult (notBorrowFlag b a) x (b - a)).advance

/-- SHL Vx (R259): `y` is not read (R107). -/
def execShl (x _y : RegIdx) (s : State) : Result :=
  let a := s.readV x
  .next (s.writeFlagThenResult (shiftLeftFlag a) x (a <<< 1)).advance

/-- RND Vx,kk (R260): exactly one draw. -/
def execRnd (x : RegIdx) (kk : Byte) (s : State) : Result :=
  .next ((s.writeV x (s.nextRandom &&& kk)).countDraw).advance

end Sys2Proof.Machine
end

