-- ==== Sys2Proof/Machine/ControlFlow.lean ====
section
/-!
DEFINITION. The control-flow instructions (spec/41_control_flow.md).
-/

namespace Sys2Proof.Machine

/-- RET (R201): `pc` is the popped CALL address plus 2, in one update (C7). -/
def execRet (mid : Byte) (s : State) : Result :=
  match s.pop with
  | none => raise (.stackUnderflow s.pc (encode (.ret mid)))
  | some (t, saved) => .next (t.setPc (saved + 2#16))

/-- JP nnn (R202). -/
def execJp (nnn : Addr12) (s : State) : Result := .next (s.setPc (zextAddr nnn))

/-- CALL nnn (R203): the pushed value is the address of the CALL itself. -/
def execCall (nnn : Addr12) (s : State) : Result :=
  match s.pushPc with
  | none => raise (.stackOverflow s.pc (encode (.call nnn)))
  | some t => .next (t.setPc (zextAddr nnn))

/-- SE Vx,kk (R204). -/
def execSeImm (x : RegIdx) (kk : Byte) (s : State) : Result := .next (s.skipIf (s.readV x == kk))

/-- SNE Vx,kk (R205). -/
def execSneImm (x : RegIdx) (kk : Byte) (s : State) : Result := .next (s.skipIf (s.readV x != kk))

/-- SE Vx,Vy (R206). -/
def execSeReg (x y : RegIdx) (s : State) : Result := .next (s.skipIf (s.readV x == s.readV y))

/-- SNE Vx,Vy (R207). -/
def execSneReg (x y : RegIdx) (s : State) : Result := .next (s.skipIf (s.readV x != s.readV y))

/-- JP V0,nnn (R208): the sum is not masked (D9). -/
def execJpV0 (nnn : Addr12) (s : State) : Result :=
  .next (s.setPc (zextAddr nnn + zextByte (s.readV 0x0#4)))

end Sys2Proof.Machine
end

