-- ==== Sys2Proof/Machine/DisplayOps.lean ====
section
/-!
DEFINITION. The display instructions and the sprite-blit rasterizer (spec/46_display.md).
-/

namespace Sys2Proof.Machine

/-- What the rasterizer carries: the display, and whether a set pixel has been inverted. -/
abbrev Canvas := Display × Bool

/-- Invert the cell a sprite pixel falls on, if it is not clipped; a cell that held 1 is a
collision (R401). -/
def plot (edge : Config.SpriteEdge) (r c : Nat) (canvas : Canvas) : Canvas :=
  match placePixel edge r c with
  | none => canvas
  | some (py, px) =>
    (setPixel canvas.1 py px (pixel canvas.1 py px ^^^ 0x01#8),
      canvas.2 || pixel canvas.1 py px == 0x01#8)

/-- One sprite row: its eight bits from left to right (R401). -/
def blitRow (edge : Config.SpriteEdge) (r x0 : Nat) (row : Byte) (canvas : Canvas) : Canvas :=
  (List.range 8).foldl
    (fun cv c => if spriteBit row c then plot edge r (x0 + c) cv else cv) canvas

/-- `Blit` (R401): the sprite's rows from row `r` down. -/
def blit (edge : Config.SpriteEdge) (r x0 : Nat) : List Byte → Canvas → Canvas
  | [], canvas => canvas
  | row :: rows, canvas => blit edge (r + 1) x0 rows (blitRow edge r x0 row canvas)

/-- CLS (R400). -/
def execCls (_mid : Byte) (s : State) : Result :=
  .next ((s.setDisplay clearDisplay).setRedraw true).advance

/-- DRW Vx,Vy,n (R402) under either `SPRITE_EDGE`: coordinates and sprite bytes are read before VF
is written (R147), and no byte is accessed when n = 0 (D9). -/
def execDrwWith (edge : Config.SpriteEdge) (x y : RegIdx) (n : Nibble) (s : State) : Result :=
  withAccess s (encode (.drw x y n)) s.i.toNat n.toNat
    (let canvas := blit edge (startRow (s.readV y)) (startColumn (s.readV x))
      (Memory.readBytes s.mem s.i.toNat n.toNat) (s.display, false)
    .next (((s.setDisplay canvas.1).writeV vf (flagByte canvas.2)).setRedraw true).advance)

/-- DRW Vx,Vy,n (R402). -/
def execDrw (x y : RegIdx) (n : Nibble) (s : State) : Result :=
  execDrwWith Config.params.spriteEdge x y n s

end Sys2Proof.Machine
end

