-- ==== Sys2Proof/Machine/Input.lean ====
section
/-!
DEFINITION. The input instructions (spec/45_input.md).
-/

namespace Sys2Proof.Machine

/-- Test key V[x] of the keypad, or raise `InvalidKeyIndex` when it names no key (R380, D6). -/
def withKey (s : State) (word : Word) (x : RegIdx) (test : Bool → Result) : Result :=
  match keyIndex (s.readV x) with
  | none => raise (.invalidKeyIndex s.pc word (s.readV x))
  | some k => test (s.key k)

/-- SKP Vx (R381). -/
def execSkp (x : RegIdx) (s : State) : Result :=
  withKey s (encode (.skp x)) x (fun pressed => .next (s.skipIf pressed))

/-- SKNP Vx (R382). -/
def execSknp (x : RegIdx) (s : State) : Result :=
  withKey s (encode (.sknp x)) x (fun pressed => .next (s.skipIf (!pressed)))

/-- LD Vx,K (R383) under any `KEY_SELECT`: with no key pressed it writes nothing, PC included,
and completes (the poll of R384, D22). -/
def execLdVxKWith (select : Nibble → List Nibble → Nibble) (x : RegIdx) (s : State) : Result :=
  match s.pressedKeys with
  | [] => .next s
  | k :: ks => .next (s.writeV x ((select k ks).setWidth 8)).advance

/-- LD Vx,K (R383, R384). -/
def execLdVxK (x : RegIdx) (s : State) : Result := execLdVxKWith Config.params.keySelect x s

end Sys2Proof.Machine
end

