-- ==== Sys2Proof/Machine/Timer.lean ====
section
/-!
DEFINITION. The timer instructions (spec/44_timer.md). The tick at the end of the step is
`timerTick` (Machine/Ops.lean).
-/

namespace Sys2Proof.Machine

/-- LD Vx,DT (R351): DT as it is before this step's tick. -/
def execLdVxDT (x : RegIdx) (s : State) : Result := .next (s.writeV x s.dt).advance

/-- LD DT,Vx (R352). -/
def execLdDTVx (x : RegIdx) (s : State) : Result := .next (s.setDT (s.readV x)).advance

/-- LD ST,Vx (R353). -/
def execLdSTVx (x : RegIdx) (s : State) : Result := .next (s.setST (s.readV x)).advance

end Sys2Proof.Machine
end

