-- ==== Sys2Proof/Machine/Transfer.lean ====
section
/-!
DEFINITION. The memory and register-transfer instructions (spec/43_memory_transfer.md). None
writes a flag; I changes only where a rule writes it (R300, D23).
-/

namespace Sys2Proof.Machine

/-- LD Vx,kk (R301). -/
def execLdImm (x : RegIdx) (kk : Byte) (s : State) : Result := .next (s.writeV x kk).advance

/-- LD Vx,Vy (R302). -/
def execLdReg (x y : RegIdx) (s : State) : Result := .next (s.writeV x (s.readV y)).advance

/-- LD I,nnn (R303). -/
def execLdI (nnn : Addr12) (s : State) : Result := .next (s.setI (zextAddr nnn)).advance

/-- ADD I,Vx (R304): mod 65536, no flag. -/
def execAddIVx (x : RegIdx) (s : State) : Result :=
  .next (s.setI (s.i + zextByte (s.readV x))).advance

/-- LD F,Vx (R305). -/
def execLdFVx (x : RegIdx) (s : State) : Result :=
  .next (s.setI (glyphAddress (s.readV x))).advance

/-- LD B,Vx (R306). -/
def execLdBVx (x : RegIdx) (s : State) : Result :=
  withAccess s (encode (.ldBVx x)) s.i.toNat 3
    (.next (s.setMem (Memory.writeBytes s.mem s.i.toNat (bcdDigits (s.readV x)))).advance)

/-- LD [I],Vx (R307). -/
def execStoreRegs (x : RegIdx) (s : State) : Result :=
  withAccess s (encode (.storeRegs x)) s.i.toNat (x.toNat + 1)
    (.next (s.setMem (Memory.writeBytes s.mem s.i.toNat (s.lowRegs x))).advance)

/-- LD Vx,[I] (R308). -/
def execLoadRegs (x : RegIdx) (s : State) : Result :=
  withAccess s (encode (.loadRegs x)) s.i.toNat (x.toNat + 1)
    (.next (s.writeRegs 0 (Memory.readBytes s.mem s.i.toNat (x.toNat + 1))).advance)

end Sys2Proof.Machine
end

