-- ==== Sys2Proof/Machine/Step.lean ====
section
/-!
DEFINITION. `step()` (spec/40_step_cycle.md R140) with the machine's own parameters, and the
host's `withFetchWord`.
-/

namespace Sys2Proof.Machine

/-- One `step()`: fetch, decode, execute, tick the timers (R140). -/
def step (s : State) : Host.Outcome State Fault Refusal := stepCycle decode exec s

/-- `s` with an instruction's bytes stored where `step` fetches next, at PC (log 10). -/
def State.withFetchWord (s : State) (nbits w : Nat) : State := placeWord s nbits w

end Sys2Proof.Machine
end

