-- ==== Sys2Proof/Machine/Parametric.lean ====
section
/-!
DEFINITION. The machine under every setting of the parameters of 00_scope.md R8: `step` is
`stepWith Config.params`. `RNG` is free in all of them (log 1).
-/

namespace Sys2Proof.Machine

/-- `Execute` under any parameters: only DRW (`SPRITE_EDGE`) and LD Vx,K (`KEY_SELECT`) depend on
one. -/
def execWith (p : Config.Params) (i : Instr) (s : State) : Result :=
  match i with
  | .drw x y n => execDrwWith p.spriteEdge x y n s
  | .ldVxK x => execLdVxKWith p.keySelect x s
  | i => exec i s

/-- `step()` under any parameters (`ZERO_FAMILY_STRICT` is the decoder's). -/
def stepWith (p : Config.Params) (s : State) : Result :=
  stepCycle (decodeWith p.zeroFamilyStrict) (execWith p) s

/-- Memory after `initialize` under any `FONT` (70_reset_and_hazards.md R600): every byte zeroed,
then the 80 font bytes written at 0x000. -/
def Memory.resetWith (font : Vector Byte 80) : List Host.Cell :=
  Memory.writeBytes (Memory.writeBytes [] 0 (List.replicate memSize 0x00#8)) fontBase font.toList

/-- The state `initialize` leaves under any `FONT`. -/
def State.resetWith (p : Config.Params) : State := State.reset.setMem (Memory.resetWith p.font)

end Sys2Proof.Machine
end

