-- ==== Sys2Proof/Machine/HostPort.lean ====
section
/-!
DEFINITION. The engine's edge (spec/60_exceptions.md R509, R511, R515, R516): what the host can do
between steps and what the engine answers. Every request completes before the next (R512).
-/

namespace Sys2Proof.Machine

/-! ## Host operations on the state -/

/-- `initialize(seed)` (70_reset_and_hazards.md R600): everything at its reset value and the random
source seeded; the bytes it will draw are fresh (R601, log 1). -/
def State.hardReset (s : State) (seed : Nat) : State :=
  State.reset.setRng { seed := seed, draws := s.rng.draws }

/-- `initialize(seed)` under any parameters. -/
def State.hardResetWith (p : Config.Params) (s : State) (seed : Nat) : State :=
  (State.resetWith p).setRng { seed := seed, draws := s.rng.draws }

/-- A byte on the load port: the state after it, and whether it was refused (20_memory.md R83). -/
def loadByte (s : State) (addr : Word) (data : Byte) : State × Bool :=
  match lowestBadAddress addr.toNat 1 with
  | some _ => (s, true)
  | none => (s.setMem (Memory.write s.mem addr.toNat data), false)

/-- A program's bytes written from 0x200 on (70_reset_and_hazards.md R604); none if they do not fit
in its 3584 bytes (R71). -/
def loadProgram (s : State) (bytes : List Byte) : Option State :=
  match lowestBadAddress programBase bytes.length with
  | some _ => none
  | none => some (s.setMem (Memory.writeBytes s.mem programBase bytes))

/-- The host's keypad write: bit `k` of `keys` is key `k` (R516). -/
def State.writeKeys (s : State) (keys : BitVec 16) : State :=
  s.setKeypad #v[keys.getLsbD 0, keys.getLsbD 1, keys.getLsbD 2, keys.getLsbD 3,
    keys.getLsbD 4, keys.getLsbD 5, keys.getLsbD 6, keys.getLsbD 7,
    keys.getLsbD 8, keys.getLsbD 9, keys.getLsbD 10, keys.getLsbD 11,
    keys.getLsbD 12, keys.getLsbD 13, keys.getLsbD 14, keys.getLsbD 15]

/-- The host's redraw clear (10_state.md R40). -/
def State.clearRedraw (s : State) : State := s.setRedraw false

/-- The host's `skip` (R515): `pc <- pc + 2` and nothing else. -/
def State.hostSkip (s : State) : State := s.advance

/-! ## Level outputs, read between steps -/

/-- `tone` (44_timer.md R355): ST > 0. -/
def tone (s : State) : Bool := decide (0 < s.st.toNat)

/-- `fb_rdata` at the linear pixel index `r*64 + c` (10_state.md R39, R516). -/
def displayRead (s : State) (index : BitVec 11) : Byte :=
  pixel s.display ⟨index.toNat / 64, by omega⟩ ⟨index.toNat % 64, by omega⟩

/-! ## Requests and responses -/

/-- The failure code of R502. -/
def Fault.code : Fault → BitVec 3
  | .unknownOpcode _ _ => 1
  | .stackOverflow _ _ => 2
  | .stackUnderflow _ _ => 3
  | .addressOutOfRange _ _ _ => 4
  | .invalidKeyIndex _ _ _ => 5

/-- The failure ports of R516 with `done`: `failWord` is `fail_word` where `fail_word_valid`, and
`failAddr` carries the address or the key, or nothing where R502 records neither. -/
structure FailPorts where
  pc : Word
  word : Option Word
  addr : Option Word
  deriving DecidableEq, Repr

/-- The failure information of R502 on the ports of R516. -/
def Fault.ports : Fault → FailPorts
  | .unknownOpcode pc word => { pc := pc, word := some word, addr := none }
  | .stackOverflow pc word => { pc := pc, word := some word, addr := none }
  | .stackUnderflow pc word => { pc := pc, word := some word, addr := none }
  | .addressOutOfRange pc word addr => { pc := pc, word := word, addr := some (BitVec.ofNat 16 addr) }
  | .invalidKeyIndex pc word key => { pc := pc, word := some word, addr := some (zextByte key) }

/-- What the engine answers to a request when it raises `done` (R516). -/
structure Response where
  /-- `status`: 0, or the failure's code (R502). -/
  status : BitVec 3
  /-- The failure ports; the spec gives them no value when the request does not fail. -/
  fail : Option FailPorts
  /-- `beep`, false for a failed step and for every request that is no step (R356, R501). -/
  beep : Bool
  /-- `load_refused` (20_memory.md R83). -/
  loadRefused : Bool
  deriving DecidableEq, Repr

/-- The response of a request that just completes. -/
def Response.done : Response := { status := 0, fail := none, beep := false, loadRefused := false }

/-- The engine with what the host's contract adds to it: whether the load window is open (R511). -/
structure System where
  engine : State
  loadOpen : Bool
  deriving DecidableEq, Repr

/-- The host's requests (R511). -/
inductive Request where
  /-- `init` with `seed`. -/
  | init (seed : Nat)
  /-- `load_we` with `load_addr` and `load_data`. -/
  | load (addr : Word) (data : Byte)
  /-- `step_req`. -/
  | step
  /-- `skip_req`. -/
  | skip
  /-- A write of `keys`. -/
  | keys (levels : BitVec 16)
  /-- `redraw_clr`. -/
  | clearRedraw
  deriving DecidableEq, Repr

/-- The response to a step and the engine after it: a failed step leaves it as it was (R501). -/
def stepResponse (s : State) : Result → State × Response
  | .next t => (t, { Response.done with beep := t.beep })
  | .fault f => (s, { Response.done with status := f.code, fail := some f.ports })
  | .refused _ => (s, Response.done)  -- no step is refused: `exec` has no such arm

/-- A request under any parameters: the system after it and the engine's response, or none where
the host has no such move (a load outside the window, D17). -/
def System.requestWith (p : Config.Params) (sys : System) : Request → Option (System × Response)
  | .init seed => some ({ engine := sys.engine.hardResetWith p seed, loadOpen := true }, Response.done)
  | .load addr data =>
    if sys.loadOpen then
      let r := loadByte sys.engine addr data
      some ({ sys with engine := r.1 }, { Response.done with loadRefused := r.2 })
    else none
  | .step =>
    let r := stepResponse sys.engine (stepWith p sys.engine)
    some ({ engine := r.1, loadOpen := false }, r.2)
  | .skip => some ({ sys with engine := sys.engine.hostSkip }, Response.done)
  | .keys levels => some ({ sys with engine := sys.engine.writeKeys levels }, Response.done)
  | .clearRedraw => some ({ sys with engine := sys.engine.clearRedraw }, Response.done)

/-- A request under the machine's own parameters. -/
def System.request (sys : System) : Request → Option (System × Response)
  | .init seed => some ({ engine := sys.engine.hardReset seed, loadOpen := true }, Response.done)
  | .load addr data => System.requestWith Config.params sys (.load addr data)
  | .step => System.requestWith Config.params sys .step
  | .skip => System.requestWith Config.params sys .skip
  | .keys levels => System.requestWith Config.params sys (.keys levels)
  | .clearRedraw => System.requestWith Config.params sys .clearRedraw

/-- The system after the first `initialize`, with nothing loaded (70_reset_and_hazards.md R600). -/
def System.boot (p : Config.Params) (seed : Nat) : System :=
  { engine := State.reset.hardResetWith p seed, loadOpen := true }

/-- "Initialised, then loaded" (R604, R605): `initialize(seed)` from whatever state the engine was in
before, then the program's bytes at 0x200 on; none if they do not fit. -/
def System.launch (p : Config.Params) (before : State) (seed : Nat) (program : List Byte) : Option System :=
  (loadProgram (before.hardResetWith p seed) program).map
    (fun engine => { engine := engine, loadOpen := true })

end Sys2Proof.Machine
end

