-- ==== Sys2Proof/Safety.lean ====
section
/-!
DEFINITION. The terms claims use: what an instruction leaves unchanged, the invariant of the
states a run reaches, and the end of a run (spec/70_reset_and_hazards.md R615).
-/

namespace Sys2Proof.Machine.Safety

/-! ## Frames: `t` keeps a part of `s` -/

/-- Every general register but those listed. -/
def keepsRegsBut (ws : List RegIdx) (s t : State) : Prop := ∀ r, r ∉ ws → t.readV r = s.readV r

/-- Every byte of memory. -/
def keepsMemory (s t : State) : Prop := ∀ a, Memory.read t.mem a = Memory.read s.mem a

/-- The return stack: its pointer and every slot. -/
def keepsStack (s t : State) : Prop := t.sp = s.sp ∧ t.stack = s.stack

/-- The timers and the latched beep. -/
def keepsTimers (s t : State) : Prop := t.dt = s.dt ∧ t.st = s.st ∧ t.beep = s.beep

/-- The display buffer and the redraw flag. -/
def keepsScreen (s t : State) : Prop := t.display = s.display ∧ t.redraw = s.redraw

/-- The keypad and the random source. -/
def keepsInputs (s t : State) : Prop := t.keypad = s.keypad ∧ t.rng = s.rng

/-- All but the general registers listed, I, PC and memory. -/
def keepsDevices (s t : State) : Prop :=
  keepsStack s t ∧ keepsTimers s t ∧ keepsScreen s t ∧ keepsInputs s t

/-- All but the general registers listed and PC. -/
def changesOnlyRegs (ws : List RegIdx) (s t : State) : Prop :=
  keepsRegsBut ws s t ∧ t.i = s.i ∧ keepsMemory s t ∧ keepsDevices s t

/-- All but I and PC. -/
def changesOnlyI (s t : State) : Prop := keepsRegsBut [] s t ∧ keepsMemory s t ∧ keepsDevices s t

/-- All but PC. -/
def changesOnlyPc (s t : State) : Prop := changesOnlyRegs [] s t

/-- All but PC and the `n` bytes of memory from address `a` on. -/
def changesOnlyBytes (a n : Nat) (s t : State) : Prop :=
  keepsRegsBut [] s t ∧ t.i = s.i ∧ keepsDevices s t ∧
    ∀ b, ¬(a ≤ b ∧ b < a + n) → Memory.read t.mem b = Memory.read s.mem b

/-- All but PC and the listed parts of the display: registers, I, memory, stack, timers, inputs. -/
def changesOnlyScreen (ws : List RegIdx) (s t : State) : Prop :=
  keepsRegsBut ws s t ∧ t.i = s.i ∧ keepsMemory s t ∧ keepsStack s t ∧ keepsTimers s t ∧ keepsInputs s t

/-- The instruction's word lies in the row of the opcode map with this mask and match, and decodes to
the instruction (30_encoding.md R105). -/
def encodedAs (mask value : Word) (i : Instr) : Prop :=
  encode i &&& mask = value ∧ decode (encode i) = .ok i

/-- The general registers an instruction may write (10_state.md R48): its destination `Vx`, VF where
it writes a flag, and V0..Vx for LD Vx,[I]. -/
def mayWrite : Instr → RegIdx → Prop
  | .ldImm x _, r => r = x
  | .addImm x _, r => r = x
  | .ldReg x _, r => r = x
  | .orReg x _, r => r = x
  | .andReg x _, r => r = x
  | .xorReg x _, r => r = x
  | .addReg x _, r => r = x ∨ r = vf
  | .subReg x _, r => r = x ∨ r = vf
  | .shr x _, r => r = x ∨ r = vf
  | .subnReg x _, r => r = x ∨ r = vf
  | .shl x _, r => r = x ∨ r = vf
  | .rnd x _, r => r = x
  | .drw _ _ _, r => r = vf
  | .ldVxDT x, r => r = x
  | .ldVxK x, r => r = x
  | .loadRegs x, r => r.toNat ≤ x.toNat
  | _, _ => False

/-- When an instruction fails (60_exceptions.md R502, R503): the one condition of its own rule. -/
def failsWhen (s : State) : Instr → Prop
  | .ret _ => s.sp.val = 0
  | .call _ => s.sp.val = 16
  | .drw _ _ n => 0 < n.toNat ∧ memSize ≤ s.i.toNat + n.toNat - 1
  | .skp x => 15 < (s.readV x).toNat
  | .sknp x => 15 < (s.readV x).toNat
  | .ldBVx _ => memSize ≤ s.i.toNat + 2
  | .storeRegs x => memSize ≤ s.i.toNat + x.toNat
  | .loadRegs x => memSize ≤ s.i.toNat + x.toNat
  | _ => False

/-- The values PC may hold after an instruction that completes (40_step_cycle.md R144). -/
def mayLeavePc (s : State) : Instr → Word → Prop
  | .jp nnn, p => p = zextAddr nnn
  | .call nnn, p => p = zextAddr nnn
  | .jpV0 nnn, p => p = zextAddr nnn + zextByte (s.readV 0x0#4)
  | .ret _, p => ∃ k : Fin 16, k.val + 1 = s.sp.val ∧ p = s.stack[k.val] + 2#16
  | .seImm _ _, p => p = s.pc + 2#16 ∨ p = s.pc + 4#16
  | .sneImm _ _, p => p = s.pc + 2#16 ∨ p = s.pc + 4#16
  | .seReg _ _, p => p = s.pc + 2#16 ∨ p = s.pc + 4#16
  | .sneReg _ _, p => p = s.pc + 2#16 ∨ p = s.pc + 4#16
  | .skp _, p => p = s.pc + 2#16 ∨ p = s.pc + 4#16
  | .sknp _, p => p = s.pc + 2#16 ∨ p = s.pc + 4#16
  | .ldVxK _, p => if ∃ k, s.key k = true then p = s.pc + 2#16 else p = s.pc
  | _, p => p = s.pc + 2#16

/-! ## The invariant of the states a run reaches -/

/-- The highest PC any completed step leaves (10_state.md R33). -/
abbrev maxPc : Nat := 0x10FE

/-- PC, the stack slots, memory and the pixels hold values a run can reach: PC never passes 0x10FE
and never wraps (R33), a slot holds the address of a fetched CALL (R34, 40_step_cycle.md R141),
memory is canonical, and every pixel is 0 or 1 (R39). -/
structure Inv (s : State) : Prop where
  pc : s.pc.toNat ≤ maxPc
  slots : ∀ k (h : k < 16), (s.stack[k]).toNat ≤ 0xFFE
  memory : Memory.wf s.mem
  pixels : ∀ r c, pixel s.display r c = 0x00#8 ∨ pixel s.display r c = 0x01#8

/-! ## Runs -/

/-- "Initialised, then loaded", the launch state of a run (70_reset_and_hazards.md R605): the system
after some `initialize`, with some program's bytes at 0x200 on. -/
def Launched (p : Config.Params) (sys : System) : Prop :=
  ∃ before seed program, System.launch p before seed program = some sys

/-- The systems of a run (R604, R605): launched, and then any requests of the host but `skip`, which
alone can bring PC past 0x10FE (60_exceptions.md R515). -/
inductive Run (p : Config.Params) : System → Prop where
  | launched {sys : System} (h : Launched p sys) : Run p sys
  | request {sys sys' : System} {r : Request} {resp : Response} (run : Run p sys) (h : r ≠ .skip)
      (e : sys.requestWith p r = some (sys', resp)) : Run p sys'

/-! ## Outcomes -/

/-- The step completes. -/
def completes (s : State) : Prop := ∃ t, step s = .next t

/-- The step fails. -/
def fails (s : State) : Prop := ∃ f, step s = .fault f

/-- The end of a run (R615, D25): the step fails, or the word at PC is a jump to its own address. -/
def runEnded (s : State) : Prop :=
  fails s ∨ ∃ nnn, fetch s = .ok (encode (.jp nnn)) ∧ s.pc = zextAddr nnn

/-! ## The rasterizer, pixel by pixel -/

/-- Whether the sprite `rows` drawn at row `y0` and column `x0` covers the cell at row `r` and
column `c` with a 1 bit, under `edge` (46_display.md R401). -/
def spriteCovers (edge : Config.SpriteEdge) (y0 x0 : Nat) (rows : List Byte) (r : Fin 32) (c : Fin 64) : Prop :=
  ∃ k col, ∃ row, rows[k]? = some row ∧ col < 8 ∧ row.getLsbD (7 - col) = true ∧
    match edge with
    | .wrap => (y0 + k) % 32 = r.val ∧ (x0 + col) % 64 = c.val
    | .clip => y0 + k = r.val ∧ x0 + col = c.val

end Sys2Proof.Machine.Safety
end

