-- ==== Sys2Proof/Certificates/Slice0/Obligations.lean ====
section
/-!
DEFINITION. The statements for the provers, from the numbered rules of spec/. Each docstring names
the rule it formalises, and the decision or log entry it rests on where there is one.
-/

open Sys2Proof Sys2Proof.Machine Sys2Proof.Machine.Safety

/-! ## Encoding -/

/-- Decoding an encoded instruction gives it back, with every operand at every value and under
both settings of `ZERO_FAMILY_STRICT` (30_encoding.md R104–R106). -/
def Obligations.DecodeOfEncode : Prop :=
  ∀ (strict : Bool) (i : Instr), i.wellFormedWith strict = true →
    decodeWith strict (encode i) = .ok i

/-- A word that decodes is the word of the instruction it decodes to: no bit of it is dropped, and
the instruction is well-formed (R104–R107). -/
def Obligations.EncodeOfDecode : Prop :=
  ∀ (strict : Bool) (w : Word) (i : Instr), decodeWith strict w = .ok i →
    encode i = w ∧ i.wellFormedWith strict = true

/-- The decode procedure of R104 agrees with the masks of the opcode map of R105: a word selects a
row exactly when it decodes to that row's instruction. -/
def Obligations.DecodeMatchesOpcodeMap : Prop :=
  ∀ (w : Word) (k : Nat) (row : Word × Word), opcodeRows[k]? = some row →
    (w &&& row.1 = row.2 ↔ ∃ i, decode w = .ok i ∧ i.row = k)

/-- The undefined encodings are exactly those R109 lists, under both settings of
`ZERO_FAMILY_STRICT` (D2). -/
def Obligations.UndefinedWordsAreListed : Prop :=
  ∀ (strict : Bool) (w : Word),
    (∃ e, decodeWith strict w = .error e) ↔
      (fieldFamily w = 0x0#4 ∧
        ((fieldN w ≠ 0x0#4 ∧ fieldN w ≠ 0xE#4) ∨ (strict = true ∧ w ≠ 0x00E0#16 ∧ w ≠ 0x00EE#16))) ∨
      (fieldFamily w = 0x5#4 ∧ fieldN w ≠ 0x0#4) ∨
      (fieldFamily w = 0x8#4 ∧ fieldN w ∈ [0x8#4, 0x9#4, 0xA#4, 0xB#4, 0xC#4, 0xD#4, 0xF#4]) ∨
      (fieldFamily w = 0x9#4 ∧ fieldN w ≠ 0x0#4) ∨
      (fieldFamily w = 0xE#4 ∧ fieldKK w ∉ [0x9E#8, 0xA1#8]) ∨
      (fieldFamily w = 0xF#4 ∧
        fieldKK w ∉ [0x07#8, 0x0A#8, 0x15#8, 0x18#8, 0x1E#8, 0x29#8, 0x33#8, 0x55#8, 0x65#8])

/-- A few words decode to the instructions spec/95_test_vectors.md gives for them. -/
def Obligations.SampleWordsDecode : Prop :=
  decode 0x00E0#16 = .ok (.cls 0x0E#8) ∧ decode 0x1234#16 = .ok (.jp 0x234#12) ∧
  decode 0x81F4#16 = .ok (.addReg 0x1#4 0xF#4) ∧ decode 0x6A2F#16 = .ok (.ldImm 0xA#4 0x2F#8) ∧
  decode 0xD015#16 = .ok (.drw 0x0#4 0x1#4 0x5#4) ∧ decode 0xE29E#16 = .ok (.skp 0x2#4) ∧
  decode 0xF418#16 = .ok (.ldSTVx 0x4#4)

/-! ## The single-step cycle -/

/-- Fetch (40_step_cycle.md R141): two consecutive bytes, big-endian; a PC of 0xFFF or more fails
with the lowest address outside memory and no word. -/
def Obligations.FetchIsBigEndian : Prop :=
  ∀ s : State,
    if memSize ≤ s.pc.toNat then step s = .fault (.addressOutOfRange s.pc none s.pc.toNat)
    else if memSize ≤ s.pc.toNat + 1 then
      step s = .fault (.addressOutOfRange s.pc none (s.pc.toNat + 1))
    else ∃ w : Word, fetch s = .ok w ∧
      w.toNat = 256 * (Memory.read s.mem s.pc.toNat).toNat + (Memory.read s.mem (s.pc.toNat + 1)).toNat

/-- One step (R140): the fetched word's instruction is executed and then the timers tick; a step
whose instruction fails, or whose word is undefined, fails. -/
def Obligations.StepRunsDecodedInstruction : Prop :=
  ∀ s : State,
    (∀ f, fetch s = .error f → step s = .fault f) ∧
    (∀ w e, fetch s = .ok w → decode w = .error e → step s = .fault (.unknownOpcode s.pc w)) ∧
    (∀ w i t, fetch s = .ok w → decode w = .ok i → exec i s = .next t → step s = .next (timerTick t)) ∧
    (∀ w i f, fetch s = .ok w → decode w = .ok i → exec i s = .fault f → step s = .fault f)

/-- An undefined word, 0xFFFF among them, fails with `UnknownOpcode` before any effect: PC does not
advance, no register changes, the timers are not decremented (30_encoding.md R113). -/
def Obligations.UndefinedWordFails : Prop :=
  (∃ e, decode 0xFFFF#16 = .error e) ∧
  ∀ (sys : System) (w : Word) (e : Undefined), fetch sys.engine = .ok w → decode w = .error e →
    step sys.engine = .fault (.unknownOpcode sys.engine.pc w) ∧
    ∃ sys' resp, sys.request .step = some (sys', resp) ∧ sys'.engine = sys.engine

/-- A failed step changes no state and reports no beep, whatever made it fail, under every
parameter setting (60_exceptions.md R501). -/
def Obligations.FailedStepChangesNothing : Prop :=
  ∀ (p : Config.Params) (sys : System) (f : Fault), stepWith p sys.engine = .fault f →
    ∃ sys' resp, sys.requestWith p .step = some (sys', resp) ∧ sys'.engine = sys.engine ∧
      resp.beep = false

/-- No failure condition reads the keypad or the redraw flag: changing them changes no failure
(40_step_cycle.md R150, the spec's own inference). -/
def Obligations.FailureIgnoresKeypadAndRedraw : Prop :=
  ∀ (s : State) (f : Fault) (keys : Vector Bool 16) (r : Bool), step s = .fault f →
    step ((s.setKeypad keys).setRedraw r) = .fault f

/-- What a failing step records, why it was raised, and what the host is given for it
(60_exceptions.md R502, R516; the codes 1 to 5 and the recorded fields are D11's): the failing PC, the
fetched word unless the fetch failed, the lowest address not below 4096, or the key, which is V[x] of
the instruction. That the load window is then closed is the model's choice (log 8). -/
def Obligations.FailureRecordsPcAndWord : Prop :=
  ∀ (sys : System) (s : State) (f : Fault), s = sys.engine → step s = .fault f →
    ∃ sys' resp, sys.request .step = some (sys', resp) ∧ sys'.loadOpen = false ∧
      match f with
      | .unknownOpcode pc w =>
        pc = s.pc ∧ fetch s = .ok w ∧ (∃ e, decode w = .error e) ∧
        resp.status = 1#3 ∧ resp.fail = some { pc := s.pc, word := some w, addr := none }
      | .stackOverflow pc w =>
        pc = s.pc ∧ fetch s = .ok w ∧ (∃ nnn, decode w = .ok (.call nnn)) ∧ s.sp.val = 16 ∧
        resp.status = 2#3 ∧ resp.fail = some { pc := s.pc, word := some w, addr := none }
      | .stackUnderflow pc w =>
        pc = s.pc ∧ fetch s = .ok w ∧ (∃ mid, decode w = .ok (.ret mid)) ∧ s.sp.val = 0 ∧
        resp.status = 3#3 ∧ resp.fail = some { pc := s.pc, word := some w, addr := none }
      | .addressOutOfRange pc (some w) a =>
        pc = s.pc ∧ fetch s = .ok w ∧ a = max s.i.toNat memSize ∧
        (∃ x, decode w = .ok (.ldBVx x) ∨ decode w = .ok (.storeRegs x) ∨
          decode w = .ok (.loadRegs x) ∨ ∃ y n, decode w = .ok (.drw x y n)) ∧
        resp.status = 4#3 ∧
        ∃ port : Word, port.toNat = a ∧
          resp.fail = some { pc := s.pc, word := some w, addr := some port }
      | .addressOutOfRange pc none a =>
        pc = s.pc ∧ fetch s = .error f ∧ a = max s.pc.toNat memSize ∧ resp.status = 4#3 ∧
        ∃ port : Word, port.toNat = a ∧
          resp.fail = some { pc := s.pc, word := none, addr := some port }
      | .invalidKeyIndex pc w key =>
        pc = s.pc ∧ fetch s = .ok w ∧ 15 < key.toNat ∧
        (∃ x, (decode w = .ok (.skp x) ∨ decode w = .ok (.sknp x)) ∧ key = s.readV x) ∧
        resp.status = 5#3 ∧
        ∃ port : Word, port.toNat = key.toNat ∧
          resp.fail = some { pc := s.pc, word := some w, addr := some port }

/-- A step completes or fails; it never refuses (40_step_cycle.md R149). -/
def Obligations.StepNeverRefuses : Prop :=
  ∀ (s : State) (r : Refusal), step s ≠ .refused r

/-- `TimerTick` at the end of every completed step (44_timer.md R354): each timer falls by one and
never below 0, `beep` is latched exactly when ST was 1 (log 2 for the latch), and nothing else
changes. -/
def Obligations.CompletedStepTicksTimers : Prop :=
  ∀ s t : State, step s = .next t →
    ∃ w i u, fetch s = .ok w ∧ decode w = .ok i ∧ exec i s = .next u ∧
      t.dt.toNat = u.dt.toNat - 1 ∧ t.st.toNat = u.st.toNat - 1 ∧
      (t.beep = true ↔ u.st.toNat = 1) ∧ t = { u with dt := t.dt, st := t.st, beep := t.beep }

/-- An instruction fails exactly under the one condition of its own rule, and completes otherwise
(60_exceptions.md R502, R503; D6 and D9 for the key and the address checks). -/
def Obligations.InstructionFailsExactlyWhen : Prop :=
  ∀ (i : Instr) (s : State), (failsWhen s i → ∃ f, exec i s = .fault f) ∧
    (¬ failsWhen s i → ∃ t, exec i s = .next t)

/-! ## Control flow -/

/-- JP nnn (41_control_flow.md R202). -/
def Obligations.JumpSetsPc : Prop :=
  ∀ (nnn : Addr12) (s : State), encodedAs 0xF000#16 0x1000#16 (.jp nnn) ∧
    ∃ t, exec (.jp nnn) s = .next t ∧ t.pc.toNat = nnn.toNat ∧ changesOnlyPc s t

/-- JP V0,nnn (R208): the sum is not masked (D9). -/
def Obligations.JumpV0AddsUnmasked : Prop :=
  ∀ (nnn : Addr12) (s : State), ∃ t, exec (.jpV0 nnn) s = .next t ∧
    t.pc.toNat = nnn.toNat + (s.readV 0x0#4).toNat ∧ changesOnlyPc s t

/-- CALL nnn (R203): the address of the CALL is pushed at SP, SP grows by one, PC is nnn; at
SP = 16 it fails with `StackOverflow`. -/
def Obligations.CallPushesItsAddress : Prop :=
  ∀ (nnn : Addr12) (s : State), encodedAs 0xF000#16 0x2000#16 (.call nnn) ∧
    if s.sp.val = 16 then exec (.call nnn) s = .fault (.stackOverflow s.pc (encode (.call nnn)))
    else ∃ t, exec (.call nnn) s = .next t ∧ t.pc.toNat = nnn.toNat ∧ t.sp.val = s.sp.val + 1 ∧
      (∀ (k : Nat) (h : k < 16), t.stack[k] = if k = s.sp.val then s.pc else s.stack[k]) ∧
      keepsRegsBut [] s t ∧ t.i = s.i ∧ keepsMemory s t ∧ keepsTimers s t ∧ keepsScreen s t ∧
      keepsInputs s t

/-- RET (R201): SP falls by one and PC is two past the slot it uncovers, which keeps its value
(D13); at SP = 0 it fails with `StackUnderflow`. -/
def Obligations.RetPopsReturnAddress : Prop :=
  ∀ (mid : Byte) (s : State),
    if s.sp.val = 0 then exec (.ret mid) s = .fault (.stackUnderflow s.pc (encode (.ret mid)))
    else ∃ t, exec (.ret mid) s = .next t ∧ t.sp.val + 1 = s.sp.val ∧
      (∀ h : t.sp.val < 16, t.pc = s.stack[t.sp.val] + 2#16) ∧ t.stack = s.stack ∧
      keepsRegsBut [] s t ∧ t.i = s.i ∧ keepsMemory s t ∧ keepsTimers s t ∧ keepsScreen s t ∧
      keepsInputs s t

/-- CALL then RET resumes at the instruction after the CALL with the stack pointer it had before
(R201, R203; DOC0 §8, E5). -/
def Obligations.CallThenRetResumesAfterCall : Prop :=
  ∀ (nnn : Addr12) (mid : Byte) (s t : State), exec (.call nnn) s = .next t →
    ∃ u, exec (.ret mid) t = .next u ∧ u.pc = s.pc + 2#16 ∧ u.sp = s.sp ∧
      keepsRegsBut [] s u ∧ u.i = s.i ∧ keepsMemory s u

/-- SE Vx,kk and SNE Vx,kk (R204, R205). -/
def Obligations.SkipOnImmediate : Prop :=
  ∀ (x : RegIdx) (kk : Byte) (s : State),
    encodedAs 0xF000#16 0x3000#16 (.seImm x kk) ∧ encodedAs 0xF000#16 0x4000#16 (.sneImm x kk) ∧
    (∃ t, exec (.seImm x kk) s = .next t ∧ changesOnlyPc s t ∧
      t.pc = if (s.readV x).toNat = kk.toNat then s.pc + 4#16 else s.pc + 2#16) ∧
    (∃ t, exec (.sneImm x kk) s = .next t ∧ changesOnlyPc s t ∧
      t.pc = if (s.readV x).toNat ≠ kk.toNat then s.pc + 4#16 else s.pc + 2#16)

/-- SE Vx,Vy and SNE Vx,Vy (R206, R207). -/
def Obligations.SkipOnRegister : Prop :=
  ∀ (x y : RegIdx) (s : State),
    encodedAs 0xF00F#16 0x5000#16 (.seReg x y) ∧ encodedAs 0xF00F#16 0x9000#16 (.sneReg x y) ∧
    (∃ t, exec (.seReg x y) s = .next t ∧ changesOnlyPc s t ∧
      t.pc = if (s.readV x).toNat = (s.readV y).toNat then s.pc + 4#16 else s.pc + 2#16) ∧
    (∃ t, exec (.sneReg x y) s = .next t ∧ changesOnlyPc s t ∧
      t.pc = if (s.readV x).toNat ≠ (s.readV y).toNat then s.pc + 4#16 else s.pc + 2#16)

/-- PC is updated exactly once, in one of the ways 40_step_cycle.md R144 lists (the no-change case is
the key wait's, C6), and the step cycle does not advance it again. -/
def Obligations.PcUpdateIsOneOfFive : Prop :=
  (∀ (i : Instr) (s t : State), exec i s = .next t → mayLeavePc s i t.pc) ∧
  ∀ s t : State, step s = .next t →
    ∃ w i, fetch s = .ok w ∧ decode w = .ok i ∧ mayLeavePc s i t.pc

/-- A jump to its own address changes the timers alone (R202, 70_reset_and_hazards.md R615). -/
def Obligations.SelfJumpOnlyTicks : Prop :=
  ∀ (nnn : Addr12) (s : State), fetch s = .ok (encode (.jp nnn)) → s.pc = zextAddr nnn →
    ∃ t, step s = .next t ∧ t = { s with dt := t.dt, st := t.st, beep := t.beep }

/-! ## Arithmetic and logic -/

/-- ADD Vx,kk (42_arith_logic.md R251): wrapping, no flag. -/
def Obligations.AddImmediateWraps : Prop :=
  ∀ (x : RegIdx) (kk : Byte) (s : State), encodedAs 0xF000#16 0x7000#16 (.addImm x kk) ∧
    ∃ t, exec (.addImm x kk) s = .next t ∧
    (t.readV x).toNat = ((s.readV x).toNat + kk.toNat) % 256 ∧
    t.pc = s.pc + 2#16 ∧ changesOnlyRegs [x] s t

/-- OR, AND and XOR (R252–R254), bit by bit: no flag. -/
def Obligations.LogicIsBitwise : Prop :=
  ∀ (x y : RegIdx) (s : State),
    encodedAs 0xF00F#16 0x8001#16 (.orReg x y) ∧ encodedAs 0xF00F#16 0x8002#16 (.andReg x y) ∧
    encodedAs 0xF00F#16 0x8003#16 (.xorReg x y) ∧
    (∃ t, exec (.orReg x y) s = .next t ∧ t.pc = s.pc + 2#16 ∧ changesOnlyRegs [x] s t ∧
      ∀ k, (t.readV x).getLsbD k = ((s.readV x).getLsbD k || (s.readV y).getLsbD k)) ∧
    (∃ t, exec (.andReg x y) s = .next t ∧ t.pc = s.pc + 2#16 ∧ changesOnlyRegs [x] s t ∧
      ∀ k, (t.readV x).getLsbD k = ((s.readV x).getLsbD k && (s.readV y).getLsbD k)) ∧
    (∃ t, exec (.xorReg x y) s = .next t ∧ t.pc = s.pc + 2#16 ∧ changesOnlyRegs [x] s t ∧
      ∀ k, (t.readV x).getLsbD k = ((s.readV x).getLsbD k ^^ (s.readV y).getLsbD k))

/-- ADD Vx,Vy (R255): the sum mod 256 and the carry in VF; for x = F the result survives (D3). -/
def Obligations.AddRegisterSetsCarry : Prop :=
  ∀ (x y : RegIdx) (s : State), ∃ t, exec (.addReg x y) s = .next t ∧
    (t.readV x).toNat = ((s.readV x).toNat + (s.readV y).toNat) % 256 ∧
    (x ≠ vf → (t.readV vf).toNat = if 255 < (s.readV x).toNat + (s.readV y).toNat then 1 else 0) ∧
    t.pc = s.pc + 2#16 ∧ changesOnlyRegs [x, vf] s t

/-- SUB Vx,Vy and SUBN Vx,Vy (R256, R258): the difference mod 256 and NOT-borrow in VF; for x = F
the result survives (D3). -/
def Obligations.SubtractionsSetNotBorrow : Prop :=
  ∀ (x y : RegIdx) (s : State),
    (∃ t, exec (.subReg x y) s = .next t ∧
      (t.readV x).toNat = (256 + (s.readV x).toNat - (s.readV y).toNat) % 256 ∧
      (x ≠ vf → (t.readV vf).toNat = if (s.readV y).toNat ≤ (s.readV x).toNat then 1 else 0) ∧
      t.pc = s.pc + 2#16 ∧ changesOnlyRegs [x, vf] s t) ∧
    (∃ t, exec (.subnReg x y) s = .next t ∧
      (t.readV x).toNat = (256 + (s.readV y).toNat - (s.readV x).toNat) % 256 ∧
      (x ≠ vf → (t.readV vf).toNat = if (s.readV x).toNat ≤ (s.readV y).toNat then 1 else 0) ∧
      t.pc = s.pc + 2#16 ∧ changesOnlyRegs [x, vf] s t)

/-- SHR Vx and SHL Vx (R257, R259): the dropped bit in VF, Vy ignored (30_encoding.md R107); for
x = F the result survives (D3). -/
def Obligations.ShiftsSetDroppedBit : Prop :=
  ∀ (x y : RegIdx) (s : State),
    (∃ t, exec (.shr x y) s = .next t ∧ (t.readV x).toNat = (s.readV x).toNat / 2 ∧
      (x ≠ vf → (t.readV vf).toNat = (s.readV x).toNat % 2) ∧
      t.pc = s.pc + 2#16 ∧ changesOnlyRegs [x, vf] s t) ∧
    (∃ t, exec (.shl x y) s = .next t ∧ (t.readV x).toNat = (s.readV x).toNat * 2 % 256 ∧
      (x ≠ vf → (t.readV vf).toNat = (s.readV x).toNat / 128) ∧
      t.pc = s.pc + 2#16 ∧ changesOnlyRegs [x, vf] s t)

/-- RND Vx,kk (R260): one byte is drawn, a free value (D8, log 1), and ANDed with kk; no flag. -/
def Obligations.RandomDrawsOneMaskedByte : Prop :=
  ∀ (x : RegIdx) (kk : Byte) (s : State), ∃ t, exec (.rnd x kk) s = .next t ∧
    (∀ k, (t.readV x).getLsbD k = (s.nextRandom.getLsbD k && kk.getLsbD k)) ∧
    t.rng = { seed := s.rng.seed, draws := s.rng.draws + 1 } ∧ t.pc = s.pc + 2#16 ∧
    keepsRegsBut [x] s t ∧ t.i = s.i ∧ keepsMemory s t ∧ keepsStack s t ∧ keepsTimers s t ∧
    keepsScreen s t ∧ t.keypad = s.keypad

/-! ## Memory and register transfer -/

/-- LD Vx,kk and LD Vx,Vy (43_memory_transfer.md R301, R302). -/
def Obligations.LoadsRegisterFromImmediateOrRegister : Prop :=
  ∀ (x y : RegIdx) (kk : Byte) (s : State),
    encodedAs 0xF000#16 0x6000#16 (.ldImm x kk) ∧ encodedAs 0xF00F#16 0x8000#16 (.ldReg x y) ∧
    (∃ t, exec (.ldImm x kk) s = .next t ∧ t.readV x = kk ∧ t.pc = s.pc + 2#16 ∧
      changesOnlyRegs [x] s t) ∧
    (∃ t, exec (.ldReg x y) s = .next t ∧ t.readV x = s.readV y ∧ t.pc = s.pc + 2#16 ∧
      changesOnlyRegs [x] s t)

/-- LD I,nnn and ADD I,Vx (R303, R304): I keeps all 16 bits, with no flag. -/
def Obligations.IndexLoadAndAdd : Prop :=
  ∀ (nnn : Addr12) (x : RegIdx) (s : State),
    encodedAs 0xF000#16 0xA000#16 (.ldI nnn) ∧ encodedAs 0xF0FF#16 0xF01E#16 (.addIVx x) ∧
    (∃ t, exec (.ldI nnn) s = .next t ∧ t.i.toNat = nnn.toNat ∧ t.pc = s.pc + 2#16 ∧
      changesOnlyI s t) ∧
    (∃ t, exec (.addIVx x) s = .next t ∧ t.i.toNat = (s.i.toNat + (s.readV x).toNat) % 65536 ∧
      t.pc = s.pc + 2#16 ∧ changesOnlyI s t)

/-- LD F,Vx (R305): five times the digit, unmasked (D4, D5). -/
def Obligations.FontAddressIsFiveTimesDigit : Prop :=
  ∀ (x : RegIdx) (s : State), ∃ t, exec (.ldFVx x) s = .next t ∧
    t.i.toNat = 5 * (s.readV x).toNat ∧ t.pc = s.pc + 2#16 ∧ changesOnlyI s t

/-- LD B,Vx (R306): three decimal digits at I, hundreds first, I unchanged (D23); past memory it
fails with the lowest address outside it. -/
def Obligations.BcdStoresDecimalDigits : Prop :=
  ∀ (x : RegIdx) (s : State),
    if memSize ≤ s.i.toNat + 2 then exec (.ldBVx x) s =
      .fault (.addressOutOfRange s.pc (some (encode (.ldBVx x))) (max s.i.toNat memSize))
    else ∃ t, exec (.ldBVx x) s = .next t ∧
      (Memory.read t.mem s.i.toNat).toNat = (s.readV x).toNat / 100 ∧
      (Memory.read t.mem (s.i.toNat + 1)).toNat = (s.readV x).toNat / 10 % 10 ∧
      (Memory.read t.mem (s.i.toNat + 2)).toNat = (s.readV x).toNat % 10 ∧
      t.pc = s.pc + 2#16 ∧ changesOnlyBytes s.i.toNat 3 s t

/-- LD [I],Vx (R307): V0..Vx at I and on, I unchanged (D23); past memory it fails with nothing
written. -/
def Obligations.StoreRegistersFromI : Prop :=
  ∀ (x : RegIdx) (s : State),
    if memSize ≤ s.i.toNat + x.toNat then exec (.storeRegs x) s =
      .fault (.addressOutOfRange s.pc (some (encode (.storeRegs x))) (max s.i.toNat memSize))
    else ∃ t, exec (.storeRegs x) s = .next t ∧
      (∀ k : RegIdx, k.toNat ≤ x.toNat → Memory.read t.mem (s.i.toNat + k.toNat) = s.readV k) ∧
      t.pc = s.pc + 2#16 ∧ changesOnlyBytes s.i.toNat (x.toNat + 1) s t

/-- LD Vx,[I] (R308): V0..Vx from I and on, I unchanged (D23); past memory it fails with no
register written. -/
def Obligations.LoadRegistersFromI : Prop :=
  ∀ (x : RegIdx) (s : State),
    if memSize ≤ s.i.toNat + x.toNat then exec (.loadRegs x) s =
      .fault (.addressOutOfRange s.pc (some (encode (.loadRegs x))) (max s.i.toNat memSize))
    else ∃ t, exec (.loadRegs x) s = .next t ∧
      (∀ k : RegIdx, t.readV k =
        if k.toNat ≤ x.toNat then Memory.read s.mem (s.i.toNat + k.toNat) else s.readV k) ∧
      t.pc = s.pc + 2#16 ∧ t.i = s.i ∧ keepsMemory s t ∧ keepsDevices s t

/-- What LD [I],Vx stores, LD Vx,[I] loads back, whatever the registers hold in between
(R307, R308, 20_memory.md R78). -/
def Obligations.StoreThenLoadRestoresRegisters : Prop :=
  ∀ (x : RegIdx) (s t : State) (v : Vector Byte 16), exec (.storeRegs x) s = .next t →
    ∃ u, exec (.loadRegs x) { t with v := v } = .next u ∧
      ∀ k : RegIdx, k.toNat ≤ x.toNat → u.readV k = s.readV k

/-- A store is seen by the next fetch: two registers stored one after the other are fetched as a
word (20_memory.md R81, 70_reset_and_hazards.md R607). -/
def Obligations.StoreIsSeenByFetch : Prop :=
  ∀ (x k : RegIdx) (s t : State), exec (.storeRegs x) s = .next t → k.toNat + 1 ≤ x.toNat →
    fetch (t.setPc (BitVec.ofNat 16 (s.i.toNat + k.toNat))) =
      .ok (wordOfBytes (s.readV k) (s.readV (k + 1#4)))

/-! ## Timers -/

/-- LD Vx,DT, LD DT,Vx and LD ST,Vx (44_timer.md R351–R353), before the step's tick. -/
def Obligations.TimerTransfers : Prop :=
  ∀ (x : RegIdx) (s : State),
    (∃ t, exec (.ldVxDT x) s = .next t ∧ t.readV x = s.dt ∧ t.pc = s.pc + 2#16 ∧
      changesOnlyRegs [x] s t) ∧
    (∃ t, exec (.ldDTVx x) s = .next t ∧ t.dt = s.readV x ∧ t.pc = s.pc + 2#16 ∧
      keepsRegsBut [] s t ∧ t.i = s.i ∧ keepsMemory s t ∧ keepsStack s t ∧ keepsScreen s t ∧
      keepsInputs s t ∧ t.st = s.st ∧ t.beep = s.beep) ∧
    (∃ t, exec (.ldSTVx x) s = .next t ∧ t.st = s.readV x ∧ t.pc = s.pc + 2#16 ∧
      keepsRegsBut [] s t ∧ t.i = s.i ∧ keepsMemory s t ∧ keepsStack s t ∧ keepsScreen s t ∧
      keepsInputs s t ∧ t.dt = s.dt ∧ t.beep = s.beep)

/-- A value written to a timer is decremented in the same step, and a 1 written to ST beeps in that
step (R352, R353, R356, 70_reset_and_hazards.md R608). -/
def Obligations.TimerWriteTicksInSameStep : Prop :=
  ∀ (x : RegIdx) (s : State),
    (fetch s = .ok (encode (.ldDTVx x)) → ∃ t, step s = .next t ∧
      t.dt.toNat = (s.readV x).toNat - 1) ∧
    (fetch s = .ok (encode (.ldSTVx x)) → ∃ t, step s = .next t ∧
      t.st.toNat = (s.readV x).toNat - 1 ∧ (t.beep = true ↔ (s.readV x).toNat = 1))

/-! ## Input -/

/-- SKP Vx and SKNP Vx on a key of the keypad (45_input.md R381, R382). -/
def Obligations.KeySkips : Prop :=
  ∀ (x : RegIdx) (k : Nibble) (s : State), (s.readV x).toNat = k.toNat →
    (∃ t, exec (.skp x) s = .next t ∧ changesOnlyPc s t ∧
      t.pc = if s.key k = true then s.pc + 4#16 else s.pc + 2#16) ∧
    (∃ t, exec (.sknp x) s = .next t ∧ changesOnlyPc s t ∧
      t.pc = if s.key k = true then s.pc + 2#16 else s.pc + 4#16)

/-- SKP Vx and SKNP Vx past the keypad fail with `InvalidKeyIndex`, the kind the spec adds (R380,
D6). -/
def Obligations.KeyPastKeypadFails : Prop :=
  ∀ (x : RegIdx) (s : State), 15 < (s.readV x).toNat →
    exec (.skp x) s = .fault (.invalidKeyIndex s.pc (encode (.skp x)) (s.readV x)) ∧
    exec (.sknp x) s = .fault (.invalidKeyIndex s.pc (encode (.sknp x)) (s.readV x))

/-- LD Vx,K with a key pressed stores the lowest pressed key (R383, D7); under any lawful
`KEY_SELECT` it stores a pressed key. -/
def Obligations.KeyWaitStoresPressedKey : Prop :=
  ∀ (x : RegIdx) (s : State), (∃ k, s.key k = true) →
    (∃ t k, exec (.ldVxK x) s = .next t ∧ s.key k = true ∧
      (∀ j, s.key j = true → k.toNat ≤ j.toNat) ∧ (t.readV x).toNat = k.toNat ∧
      t.pc = s.pc + 2#16 ∧ changesOnlyRegs [x] s t) ∧
    ∀ p : Config.Params, p.Lawful → ∃ t k, execWith p (.ldVxK x) s = .next t ∧ s.key k = true ∧
      (t.readV x).toNat = k.toNat ∧ t.pc = s.pc + 2#16 ∧ changesOnlyRegs [x] s t

/-- LD Vx,K with no key pressed is a poll (R384, D22): it writes nothing, PC included, and the step
completes with the timers ticked. -/
def Obligations.KeyWaitPollsWithoutKey : Prop :=
  ∀ (x : RegIdx) (s : State), (∀ k, s.key k = false) →
    exec (.ldVxK x) s = .next s ∧
    (fetch s = .ok (encode (.ldVxK x)) → ∃ t, step s = .next t ∧ t.pc = s.pc ∧
      t.dt.toNat = s.dt.toNat - 1 ∧ t.st.toNat = s.st.toNat - 1 ∧
      t = { s with dt := t.dt, st := t.st, beep := t.beep })

/-! ## Display -/

/-- CLS (46_display.md R400): every pixel 0, the redraw flag set, VF unchanged. -/
def Obligations.ClsClearsDisplay : Prop :=
  ∀ (mid : Byte) (s : State), ∃ t, exec (.cls mid) s = .next t ∧
    (∀ r c, pixel t.display r c = 0x00#8) ∧ t.redraw = true ∧ t.pc = s.pc + 2#16 ∧
    changesOnlyScreen [] s t

/-- The rasterizer's loop inverts exactly the cells its sprite covers, and reports a collision
exactly when one of them held 1 (R401), under both settings of `SPRITE_EDGE` (D27): no pixel is
touched twice. -/
def Obligations.BlitInvertsCoveredCells : Prop :=
  ∀ (edge : Config.SpriteEdge) (y0 x0 : Nat) (rows : List Byte) (d : Display),
    rows.length ≤ 15 →
    (∀ r c, (spriteCovers edge y0 x0 rows r c →
        pixel (blit edge y0 x0 rows (d, false)).1 r c = pixel d r c ^^^ 0x01#8) ∧
      (¬ spriteCovers edge y0 x0 rows r c →
        pixel (blit edge y0 x0 rows (d, false)).1 r c = pixel d r c)) ∧
    ((blit edge y0 x0 rows (d, false)).2 = true ↔
      ∃ r c, spriteCovers edge y0 x0 rows r c ∧ pixel d r c = 0x01#8)

/-- DRW Vx,Vy,n (R402): the cells its sprite covers are inverted, VF is 1 exactly when one of them
was set, the redraw flag is set; past memory it fails (n = 0 accesses nothing and never fails, D9).
Coordinates are read before VF is written (R147, D3), and the edge wraps (D27). -/
def Obligations.DrwInvertsCoveredCells : Prop :=
  ∀ (x y : RegIdx) (n : Nibble) (s : State),
    if 0 < n.toNat ∧ memSize ≤ s.i.toNat + n.toNat - 1 then exec (.drw x y n) s =
      .fault (.addressOutOfRange s.pc (some (encode (.drw x y n))) (max s.i.toNat memSize))
    else ∃ t, exec (.drw x y n) s = .next t ∧
      (∀ r c, (spriteCovers .wrap ((s.readV y).toNat % 32) ((s.readV x).toNat % 64)
            (Memory.readBytes s.mem s.i.toNat n.toNat) r c →
          pixel t.display r c = pixel s.display r c ^^^ 0x01#8) ∧
        (¬ spriteCovers .wrap ((s.readV y).toNat % 32) ((s.readV x).toNat % 64)
            (Memory.readBytes s.mem s.i.toNat n.toNat) r c →
          pixel t.display r c = pixel s.display r c)) ∧
      (t.readV vf = 0x00#8 ∨ t.readV vf = 0x01#8) ∧
      (t.readV vf = 0x01#8 ↔
        ∃ r c, spriteCovers .wrap ((s.readV y).toNat % 32) ((s.readV x).toNat % 64)
          (Memory.readBytes s.mem s.i.toNat n.toNat) r c ∧ pixel s.display r c = 0x01#8) ∧
      t.redraw = true ∧ t.pc = s.pc + 2#16 ∧ changesOnlyScreen [vf] s t

/-- Drawing a sprite twice at the same place restores the display; on a clear display the first
draw reports no collision and the second one exactly when the sprite covers some cell (R402; DOC0
§8, E7). With x or y = F the second draw would read other coordinates, so the place is not the
same. -/
def Obligations.DrawingTwiceRestoresDisplay : Prop :=
  ∀ (x y : RegIdx) (n : Nibble) (s t : State), x ≠ vf → y ≠ vf → exec (.drw x y n) s = .next t →
    ∃ u, exec (.drw x y n) t = .next u ∧ (∀ r c, pixel u.display r c = pixel s.display r c) ∧
      ((∀ r c, pixel s.display r c = 0x00#8) → t.readV vf = 0x00#8 ∧
        (u.readV vf = 0x01#8 ↔ ∃ r c, pixel t.display r c = 0x01#8))

/-! ## Who writes what -/

/-- A general register changes only under the instructions R48 lists as writing it; VF changes only
as a flag or as a destination (10_state.md R31, R48). -/
def Obligations.RegistersHaveListedWriters : Prop :=
  ∀ (i : Instr) (s t : State) (r : RegIdx), exec i s = .next t → ¬ mayWrite i r →
    t.readV r = s.readV r

/-- I is written by LD I,nnn, ADD I,Vx and LD F,Vx alone (10_state.md R32; D23 for the memory
instructions). -/
def Obligations.IndexHasThreeWriters : Prop :=
  ∀ (i : Instr) (s t : State), exec i s = .next t → t.i ≠ s.i →
    (∃ nnn, i = .ldI nnn) ∨ (∃ x, i = .addIVx x) ∨ (∃ x, i = .ldFVx x)

/-- Only CALL and RET change the stack pointer, and only CALL writes a slot (10_state.md R34, R35). -/
def Obligations.StackChangesOnlyByCallAndRet : Prop :=
  ∀ (i : Instr) (s t : State), exec i s = .next t →
    (t.sp ≠ s.sp → (∃ nnn, i = .call nnn) ∨ ∃ mid, i = .ret mid) ∧
    (t.stack ≠ s.stack → ∃ nnn, i = .call nnn)

/-- Memory is written by LD B,Vx and LD [I],Vx alone, within the bytes 20_memory.md R73 gives
them. -/
def Obligations.MemoryHasTwoWriters : Prop :=
  ∀ (i : Instr) (s t : State) (a : Nat), exec i s = .next t →
    Memory.read t.mem a ≠ Memory.read s.mem a →
    ((∃ x, i = .ldBVx x) ∧ s.i.toNat ≤ a ∧ a ≤ s.i.toNat + 2) ∨
    (∃ x : RegIdx, i = .storeRegs x ∧ s.i.toNat ≤ a ∧ a ≤ s.i.toNat + x.toNat)

/-- Only CLS and DRW mutate the display buffer or set the redraw flag, and each of them sets it
(10_state.md R39, R40, C3). -/
def Obligations.ScreenChangesOnlyByClsAndDrw : Prop :=
  ∀ (i : Instr) (s t : State), exec i s = .next t →
    if (∃ mid, i = .cls mid) ∨ (∃ x y n, i = .drw x y n) then t.redraw = true
    else keepsScreen s t

/-- No instruction writes the keypad, and only RND draws from the random source (10_state.md R41,
R43). -/
def Obligations.InputsAreOnlyRead : Prop :=
  ∀ (i : Instr) (s t : State), exec i s = .next t →
    t.keypad = s.keypad ∧ (t.rng ≠ s.rng → ∃ x kk, i = .rnd x kk)

/-- DT is written by LD DT,Vx and ST by LD ST,Vx, apart from the tick (10_state.md R36, R37). -/
def Obligations.TimersHaveOneWriterEach : Prop :=
  ∀ (i : Instr) (s t : State), exec i s = .next t →
    (t.dt ≠ s.dt → ∃ x, i = .ldDTVx x) ∧ (t.st ≠ s.st → ∃ x, i = .ldSTVx x) ∧ t.beep = s.beep

/-! ## Reset, parameters and the host -/

/-- What `initialize` leaves, from any state (70_reset_and_hazards.md R600; the font's bytes are
R602's, log 4). -/
def Obligations.InitializeResetsEverything : Prop :=
  ∀ (s t : State) (seed : Nat), t = s.hardReset seed →
    t.pc = 0x200#16 ∧ t.i = 0#16 ∧ t.sp.val = 0 ∧ t.dt = 0#8 ∧ t.st = 0#8 ∧ t.redraw = false ∧
    (∀ r, t.readV r = 0#8) ∧ (∀ (k : Nat) (h : k < 16), t.stack[k] = 0#16) ∧
    (∀ k, t.key k = false) ∧ (∀ r c, pixel t.display r c = 0#8) ∧
    (∀ (a : Nat) (h : a < 80), Memory.read t.mem a = Config.params.font[a]) ∧
    (∀ a, 80 ≤ a → Memory.read t.mem a = 0#8) ∧ t.rng.seed = seed

/-- The reset state under any `FONT` (R600, D4): the font at 0x000, zeros elsewhere, memory
canonical (the form is log 11's); under the default it is `State.reset`. And the launch state, which
is that one plus the program's bytes (R604, R605): a program of at most 3584 bytes can be launched, no
longer one can, and the first step fetches its first two bytes (R603). The draw count that
`initialize` keeps is log 1's. -/
def Obligations.ResetWithAnyFont : Prop :=
  (∀ (p : Config.Params) (a : Nat), Memory.read (State.resetWith p).mem a =
      if h : a < 80 then p.font[a] else 0#8) ∧
    (∀ p : Config.Params, Memory.wf (State.resetWith p).mem) ∧
    State.resetWith Config.params = State.reset ∧
    ∀ (p : Config.Params) (before : State) (seed : Nat) (program : List Byte),
      ((∃ sys, System.launch p before seed program = some sys) ↔ program.length ≤ 3584) ∧
      ∀ sys, System.launch p before seed program = some sys →
        sys.loadOpen = true ∧
        sys.engine = { State.reset with
          mem := sys.engine.mem, rng := { seed := seed, draws := before.rng.draws } } ∧
        (∀ a, a < 0x200 → Memory.read sys.engine.mem a = if h : a < 80 then p.font[a] else 0#8) ∧
        (∀ a, 0x200 ≤ a → Memory.read sys.engine.mem a = (program[a - 0x200]?).getD 0#8) ∧
        ∀ hi lo rest, program = hi :: lo :: rest → fetch sys.engine = .ok (wordOfBytes hi lo)

/-- The invariant holds right after reset and in every launched system (R605): PC, the stack slots,
memory and the pixels (10_state.md R47). Its clause that memory is canonical is log 11's. -/
def Obligations.ResetMeetsInvariant : Prop :=
  Inv State.reset ∧ ∀ (p : Config.Params) (sys : System), Launched p sys → Inv sys.engine

/-- Every completed step keeps the invariant, under the default and under every other parameter
setting: PC never passes 0x10FE and never wraps (10_state.md R33, the spec's own inference), stack
slots stay fetchable addresses, memory stays canonical, pixels stay 0 or 1 (R39). -/
def Obligations.StepKeepsInvariant : Prop :=
  ∀ s t : State, Inv s →
    (step s = .next t → Inv t) ∧ ∀ p : Config.Params, stepWith p s = .next t → Inv t

/-- Every request of the host but `skip` keeps the invariant, and `skip` changes nothing but PC
(60_exceptions.md R511, R515, D16); so every engine of a run without `skip`, started "initialised,
then loaded" (70_reset_and_hazards.md R605), meets it. And what the two requests that write an input
do: the keypad write sets key `k` to bit `k` of the levels (R516, 10_state.md R41), the redraw clear
clears the flag (R40), and neither changes anything else. -/
def Obligations.RequestsKeepInvariant : Prop :=
  ∀ p : Config.Params,
    (∀ (sys sys' : System) (r : Request) (resp : Response), Inv sys.engine →
      sys.requestWith p r = some (sys', resp) →
      (r ≠ .skip → Inv sys'.engine) ∧
      (r = .skip → sys' = { sys with engine := { sys.engine with pc := sys.engine.pc + 2#16 } })) ∧
    (∀ sys : System, Run p sys → Inv sys.engine) ∧
    (∀ (sys : System) (levels : BitVec 16), ∃ sys' resp,
      sys.requestWith p (.keys levels) = some (sys', resp) ∧
      sys' = { sys with engine := { sys.engine with keypad := sys'.engine.keypad } } ∧
      ∀ k, sys'.engine.key k = levels.getLsbD k.toNat) ∧
    ∀ sys : System, ∃ sys' resp, sys.requestWith p .clearRedraw = some (sys', resp) ∧
      sys' = { sys with engine := { sys.engine with redraw := false } }

/-- The load port (20_memory.md R83, D17): inside the window a byte below 4096 is written, one at
4096 or above is refused with memory unchanged; outside the window there is no such move; a step
closes the window and `initialize` opens it. -/
def Obligations.LoadPortWritesInWindow : Prop :=
  ∀ (sys : System) (addr : Word) (data : Byte),
    (sys.loadOpen = false → sys.request (.load addr data) = none) ∧
    (sys.loadOpen = true → ∃ sys' resp, sys.request (.load addr data) = some (sys', resp) ∧
      sys'.loadOpen = true ∧ resp.loadRefused = decide (memSize ≤ addr.toNat) ∧
      sys'.engine = { sys.engine with mem := sys'.engine.mem } ∧
      ∀ a, Memory.read sys'.engine.mem a =
        if a = addr.toNat ∧ a < memSize then data else Memory.read sys.engine.mem a) ∧
    (∀ sys' resp, sys.request .step = some (sys', resp) → sys'.loadOpen = false) ∧
    (∀ seed sys' resp, sys.request (.init seed) = some (sys', resp) → sys'.loadOpen = true)
end

