-- ==== Sys2Proof/Laws/Decode.lean ====
section
/-!
SUPPORT. The bits of packed words, their fields, words as their fields, and the masks of the opcode
map (30_encoding.md R105): what claims about encode and decode rest on.
-/

namespace Sys2Proof

/-! ## The bits of a packed word -/

theorem getLsbD_packNNN (f : Nibble) (a : Addr12) (i : Nat) :
    (packNNN f a).getLsbD i = if i < 12 then a.getLsbD i else f.getLsbD (i - 12) := by
  refine (BitVec.getLsbD_append (x := f) (y := a) (i := i)).trans ?_
  simp

theorem getLsbD_packXKK (f : Nibble) (x : RegIdx) (kk : Byte) (i : Nat) :
    (packXKK f x kk).getLsbD i =
      if i < 8 then kk.getLsbD i else if i < 12 then x.getLsbD (i - 8) else f.getLsbD (i - 12) := by
  refine (BitVec.getLsbD_append (x := f) (y := (x ++ kk : BitVec (4 + 8))) (i := i)).trans ?_
  rw [BitVec.getLsbD_append]
  by_cases h : i < 8
  · simp [h, show i < 12 by omega]
  · simp [h]

theorem getLsbD_packXYN (f : Nibble) (x y : RegIdx) (n : Nibble) (i : Nat) :
    (packXYN f x y n).getLsbD i =
      if i < 4 then n.getLsbD i else if i < 8 then y.getLsbD (i - 4)
      else if i < 12 then x.getLsbD (i - 8) else f.getLsbD (i - 12) := by
  refine (getLsbD_packXKK f x (y ++ n : BitVec (4 + 4)) i).trans ?_
  rw [BitVec.getLsbD_append]
  by_cases h : i < 4
  · simp [h, show i < 8 by omega]
  · simp [h]

theorem packOP0_eq (mid : Byte) (o : Nibble) :
    packOP0 mid o = packXYN 0x0#4 (mid.extractLsb' 4 4) (mid.extractLsb' 0 4) o := by
  apply BitVec.eq_of_getLsbD_eq
  intro i hi
  rw [getLsbD_packXYN]
  refine (BitVec.getLsbD_append (x := 0x0#4) (y := (mid ++ o : BitVec (8 + 4))) (i := i)).trans ?_
  rw [BitVec.getLsbD_append]
  by_cases h4 : i < 4
  · simp [h4, show i < 12 by omega]
  · by_cases h8 : i < 8
    · simp [h4, h8, show i < 12 by omega, show i - 4 < 4 by omega]
    · by_cases h12 : i < 12
      · simp [h4, h8, h12, show i - 8 < 4 by omega, show 4 + (i - 8) = i - 4 by omega]
      · simp [h4, h8, h12]

/-! ## The fields of a packed word -/

@[simp] theorem fieldFamily_packNNN (f : Nibble) (a : Addr12) : fieldFamily (packNNN f a) = f := by
  unfold fieldFamily; ext i hi
  simp [getLsbD_packNNN, BitVec.getLsbD_eq_getElem hi]

@[simp] theorem fieldNNN_packNNN (f : Nibble) (a : Addr12) : fieldNNN (packNNN f a) = a := by
  unfold fieldNNN; ext i hi
  simp [getLsbD_packNNN, hi]

@[simp] theorem fieldFamily_packXKK (f : Nibble) (x : RegIdx) (kk : Byte) :
    fieldFamily (packXKK f x kk) = f := by
  unfold fieldFamily; ext i hi
  simp [getLsbD_packXKK, show ¬ 12 + i < 8 by omega, BitVec.getLsbD_eq_getElem hi]

@[simp] theorem fieldX_packXKK (f : Nibble) (x : RegIdx) (kk : Byte) :
    fieldX (packXKK f x kk) = x := by
  unfold fieldX; ext i hi
  simp [getLsbD_packXKK, show 8 + i < 12 by omega, BitVec.getLsbD_eq_getElem hi]

@[simp] theorem fieldKK_packXKK (f : Nibble) (x : RegIdx) (kk : Byte) :
    fieldKK (packXKK f x kk) = kk := by
  unfold fieldKK; ext i hi
  simp [getLsbD_packXKK, hi]

@[simp] theorem fieldFamily_packXYN (f : Nibble) (x y : RegIdx) (n : Nibble) :
    fieldFamily (packXYN f x y n) = f := by
  unfold fieldFamily; ext i hi
  simp [getLsbD_packXYN, show ¬ 12 + i < 4 by omega, show ¬ 12 + i < 8 by omega,
    BitVec.getLsbD_eq_getElem hi]

@[simp] theorem fieldX_packXYN (f : Nibble) (x y : RegIdx) (n : Nibble) :
    fieldX (packXYN f x y n) = x := by
  unfold fieldX; ext i hi
  simp [getLsbD_packXYN, show ¬ 8 + i < 4 by omega, show 8 + i < 12 by omega,
    BitVec.getLsbD_eq_getElem hi]

@[simp] theorem fieldY_packXYN (f : Nibble) (x y : RegIdx) (n : Nibble) :
    fieldY (packXYN f x y n) = y := by
  unfold fieldY; ext i hi
  simp [getLsbD_packXYN, show 4 + i < 8 by omega, BitVec.getLsbD_eq_getElem hi]

@[simp] theorem fieldN_packXYN (f : Nibble) (x y : RegIdx) (n : Nibble) :
    fieldN (packXYN f x y n) = n := by
  unfold fieldN; ext i hi
  simp [getLsbD_packXYN, hi]

@[simp] theorem fieldFamily_packOP0 (mid : Byte) (o : Nibble) :
    fieldFamily (packOP0 mid o) = 0x0#4 := by rw [packOP0_eq]; simp

@[simp] theorem fieldN_packOP0 (mid : Byte) (o : Nibble) : fieldN (packOP0 mid o) = o := by
  rw [packOP0_eq]; simp

@[simp] theorem fieldMid_packOP0 (mid : Byte) (o : Nibble) : fieldMid (packOP0 mid o) = mid := by
  rw [packOP0_eq]; unfold fieldMid; ext i hi
  by_cases h : i < 4
  · simp [getLsbD_packXYN, h, show 4 + i < 8 by omega, BitVec.getLsbD_eq_getElem hi]
  · simp [getLsbD_packXYN, show ¬ 4 + i < 8 by omega, show 4 + i < 12 by omega,
      show 4 + i - 8 < 4 by omega, show 4 + (4 + i - 8) = i by omega, BitVec.getLsbD_eq_getElem hi]

/-! ## A word is its fields -/

theorem packNNN_fields (w : Word) : packNNN (fieldFamily w) (fieldNNN w) = w := by
  apply BitVec.eq_of_getLsbD_eq
  intro i hi
  rw [getLsbD_packNNN]
  by_cases h : i < 12
  · simp [fieldNNN, h]
  · simp [fieldFamily, h, show i - 12 < 4 by omega, show 12 + (i - 12) = i by omega]

theorem packXKK_fields (w : Word) : packXKK (fieldFamily w) (fieldX w) (fieldKK w) = w := by
  apply BitVec.eq_of_getLsbD_eq
  intro i hi
  rw [getLsbD_packXKK]
  by_cases h : i < 8
  · simp [fieldKK, h]
  · by_cases h' : i < 12
    · simp [fieldX, h, h', show i - 8 < 4 by omega, show 8 + (i - 8) = i by omega]
    · simp [fieldFamily, h, h', show i - 12 < 4 by omega, show 12 + (i - 12) = i by omega]

theorem packXYN_fields (w : Word) :
    packXYN (fieldFamily w) (fieldX w) (fieldY w) (fieldN w) = w := by
  apply BitVec.eq_of_getLsbD_eq
  intro i hi
  rw [getLsbD_packXYN]
  by_cases h4 : i < 4
  · simp [fieldN, h4]
  · by_cases h : i < 8
    · simp [fieldY, h4, h, show i - 4 < 4 by omega, show 4 + (i - 4) = i by omega]
    · by_cases h' : i < 12
      · simp [fieldX, h4, h, h', show i - 8 < 4 by omega, show 8 + (i - 8) = i by omega]
      · simp [fieldFamily, h4, h, h', show i - 12 < 4 by omega, show 12 + (i - 12) = i by omega]

theorem packOP0_fields {w : Word} (h : fieldFamily w = 0x0#4) :
    packOP0 (fieldMid w) (fieldN w) = w := by
  have hx : (fieldMid w).extractLsb' 4 4 = fieldX w := by
    unfold fieldMid fieldX; ext i hi; simp [show 4 + i < 8 by omega, ← Nat.add_assoc]
  have hy : (fieldMid w).extractLsb' 0 4 = fieldY w := by
    unfold fieldMid fieldY; ext i hi; simp [show i < 8 by omega]
  rw [packOP0_eq, hx, hy, ← h, packXYN_fields]

/-- The two bytes of an instruction, read back big-endian, are its word (20_memory.md R72). -/
theorem wordOfBytes_split (w : Word) :
    wordOfBytes (w.extractLsb' 8 8) (w.extractLsb' 0 8) = w := by
  apply BitVec.eq_of_getLsbD_eq
  intro i hi
  refine (BitVec.getLsbD_append (x := w.extractLsb' 8 8) (y := w.extractLsb' 0 8) (i := i)).trans ?_
  by_cases h : i < 8
  · simp [h]
  · simp [h, show i - 8 < 8 by omega, show 8 + (i - 8) = i by omega]

/-- A big-endian word as a number (R72). -/
theorem wordOfBytes_toNat (hi lo : Byte) : (wordOfBytes hi lo).toNat = 256 * hi.toNat + lo.toNat := by
  unfold wordOfBytes
  rw [BitVec.toNat_append, Nat.shiftLeft_eq, Nat.mul_comm,
    ← Nat.two_pow_add_eq_or_of_lt (BitVec.isLt _)]

/-- A nibble is one of its sixteen values. -/
theorem nibble_cases (f : Nibble) :
    f = 0x0#4 ∨ f = 0x1#4 ∨ f = 0x2#4 ∨ f = 0x3#4 ∨ f = 0x4#4 ∨ f = 0x5#4 ∨ f = 0x6#4 ∨ f = 0x7#4 ∨
    f = 0x8#4 ∨ f = 0x9#4 ∨ f = 0xA#4 ∨ f = 0xB#4 ∨ f = 0xC#4 ∨ f = 0xD#4 ∨ f = 0xE#4 ∨ f = 0xF#4 := by
  revert f; decide

/-! ## The decoder, family by family (R104) -/

section Families
variable (strict : Bool) {w : Word}

theorem decodeWith_family0 (h : fieldFamily w = 0x0#4) :
    decodeWith strict w = decodeFamily0 strict w := by
  unfold decodeWith; rw [h]; rfl

theorem decodeWith_family1 (h : fieldFamily w = 0x1#4) :
    decodeWith strict w = .ok (.jp (fieldNNN w)) := by
  unfold decodeWith; rw [h]; rfl

theorem decodeWith_family2 (h : fieldFamily w = 0x2#4) :
    decodeWith strict w = .ok (.call (fieldNNN w)) := by
  unfold decodeWith; rw [h]; rfl

theorem decodeWith_family3 (h : fieldFamily w = 0x3#4) :
    decodeWith strict w = .ok (.seImm (fieldX w) (fieldKK w)) := by
  unfold decodeWith; rw [h]; rfl

theorem decodeWith_family4 (h : fieldFamily w = 0x4#4) :
    decodeWith strict w = .ok (.sneImm (fieldX w) (fieldKK w)) := by
  unfold decodeWith; rw [h]; rfl

theorem decodeWith_family5 (h : fieldFamily w = 0x5#4) :
    decodeWith strict w = if fieldN w = 0x0#4 then .ok (.seReg (fieldX w) (fieldY w)) else .error (.family5 w) := by
  unfold decodeWith; rw [h]; rfl

theorem decodeWith_family6 (h : fieldFamily w = 0x6#4) :
    decodeWith strict w = .ok (.ldImm (fieldX w) (fieldKK w)) := by
  unfold decodeWith; rw [h]; rfl

theorem decodeWith_family7 (h : fieldFamily w = 0x7#4) :
    decodeWith strict w = .ok (.addImm (fieldX w) (fieldKK w)) := by
  unfold decodeWith; rw [h]; rfl

theorem decodeWith_family8 (h : fieldFamily w = 0x8#4) :
    decodeWith strict w = decodeFamily8 w := by
  unfold decodeWith; rw [h]; rfl

theorem decodeWith_family9 (h : fieldFamily w = 0x9#4) :
    decodeWith strict w = if fieldN w = 0x0#4 then .ok (.sneReg (fieldX w) (fieldY w)) else .error (.family9 w) := by
  unfold decodeWith; rw [h]; rfl

theorem decodeWith_familyA (h : fieldFamily w = 0xA#4) :
    decodeWith strict w = .ok (.ldI (fieldNNN w)) := by
  unfold decodeWith; rw [h]; rfl

theorem decodeWith_familyB (h : fieldFamily w = 0xB#4) :
    decodeWith strict w = .ok (.jpV0 (fieldNNN w)) := by
  unfold decodeWith; rw [h]; rfl

theorem decodeWith_familyC (h : fieldFamily w = 0xC#4) :
    decodeWith strict w = .ok (.rnd (fieldX w) (fieldKK w)) := by
  unfold decodeWith; rw [h]; rfl

theorem decodeWith_familyD (h : fieldFamily w = 0xD#4) :
    decodeWith strict w = .ok (.drw (fieldX w) (fieldY w) (fieldN w)) := by
  unfold decodeWith; rw [h]; rfl

theorem decodeWith_familyE (h : fieldFamily w = 0xE#4) :
    decodeWith strict w = decodeFamilyE w := by
  unfold decodeWith; rw [h]; rfl

theorem decodeWith_familyF (h : fieldFamily w = 0xF#4) :
    decodeWith strict w = decodeFamilyF w := by
  unfold decodeWith; rw [h]; rfl

end Families

/-! ## The masks of the opcode map (R105) -/

theorem packNNN_inj {f f' : Nibble} {a a' : Addr12} :
    packNNN f a = packNNN f' a' ↔ f = f' ∧ a = a' :=
  ⟨fun h => ⟨by simpa using congrArg fieldFamily h, by simpa using congrArg fieldNNN h⟩,
    fun ⟨h, h'⟩ => by rw [h, h']⟩

theorem packXKK_inj {f f' : Nibble} {x x' : RegIdx} {k k' : Byte} :
    packXKK f x k = packXKK f' x' k' ↔ f = f' ∧ x = x' ∧ k = k' :=
  ⟨fun h => ⟨by simpa using congrArg fieldFamily h, by simpa using congrArg fieldX h,
    by simpa using congrArg fieldKK h⟩, fun ⟨h, h', h''⟩ => by rw [h, h', h'']⟩

theorem packXYN_inj {f f' : Nibble} {x x' y y' : RegIdx} {n n' : Nibble} :
    packXYN f x y n = packXYN f' x' y' n' ↔ f = f' ∧ x = x' ∧ y = y' ∧ n = n' :=
  ⟨fun h => ⟨by simpa using congrArg fieldFamily h, by simpa using congrArg fieldX h,
    by simpa using congrArg fieldY h, by simpa using congrArg fieldN h⟩,
    fun ⟨h, h', h'', h'''⟩ => by rw [h, h', h'', h''']⟩

theorem packNNN_and_mask (f : Nibble) (a : Addr12) :
    packNNN f a &&& 0xF000#16 = packNNN f 0x000#12 := by
  apply BitVec.eq_of_getLsbD_eq
  intro i hi
  simp only [BitVec.getLsbD_and, getLsbD_packNNN]
  interval_cases i <;> simp

theorem packXKK_and_mask (f : Nibble) (x : RegIdx) (kk : Byte) :
    packXKK f x kk &&& 0xF0FF#16 = packXKK f 0x0#4 kk := by
  apply BitVec.eq_of_getLsbD_eq
  intro i hi
  simp only [BitVec.getLsbD_and, getLsbD_packXKK]
  interval_cases i <;> simp

theorem packXYN_and_mask (f : Nibble) (x y : RegIdx) (n : Nibble) :
    packXYN f x y n &&& 0xF00F#16 = packXYN f 0x0#4 0x0#4 n := by
  apply BitVec.eq_of_getLsbD_eq
  intro i hi
  simp only [BitVec.getLsbD_and, getLsbD_packXYN]
  interval_cases i <;> simp

/-- The mask 0xF000 checks the family. -/
theorem and_F000 (w : Word) (f : Nibble) :
    w &&& 0xF000#16 = packNNN f 0x000#12 ↔ fieldFamily w = f := by
  conv_lhs => rw [← packNNN_fields w, packNNN_and_mask]
  simp [packNNN_inj]

/-- The mask 0xF0FF checks the family and the low byte. -/
theorem and_F0FF (w : Word) (f : Nibble) (kk : Byte) :
    w &&& 0xF0FF#16 = packXKK f 0x0#4 kk ↔ fieldFamily w = f ∧ fieldKK w = kk := by
  conv_lhs => rw [← packXKK_fields w, packXKK_and_mask]
  simp [packXKK_inj]

/-- The mask 0xF00F checks the family and the low nibble. -/
theorem and_F00F (w : Word) (f n : Nibble) :
    w &&& 0xF00F#16 = packXYN f 0x0#4 0x0#4 n ↔ fieldFamily w = f ∧ fieldN w = n := by
  conv_lhs => rw [← packXYN_fields w, packXYN_and_mask]
  simp [packXYN_inj]

end Sys2Proof
end

