-- ==== Sys2Proof/Laws/State.lean ====
section
/-!
SUPPORT. One lemma per field of State per update, each true by rfl, so that no proof unfolds a
record update. `v` after `writeV` is read with `readV_writeV` (Laws/Ops.lean).
-/

namespace Sys2Proof.Machine

variable (s : State)

@[simp] theorem State.writeV_i (r : RegIdx) (b : Byte) : (s.writeV r b).i = s.i := rfl
@[simp] theorem State.writeV_pc (r : RegIdx) (b : Byte) : (s.writeV r b).pc = s.pc := rfl
@[simp] theorem State.writeV_sp (r : RegIdx) (b : Byte) : (s.writeV r b).sp = s.sp := rfl
@[simp] theorem State.writeV_stack (r : RegIdx) (b : Byte) : (s.writeV r b).stack = s.stack := rfl
@[simp] theorem State.writeV_dt (r : RegIdx) (b : Byte) : (s.writeV r b).dt = s.dt := rfl
@[simp] theorem State.writeV_st (r : RegIdx) (b : Byte) : (s.writeV r b).st = s.st := rfl
@[simp] theorem State.writeV_mem (r : RegIdx) (b : Byte) : (s.writeV r b).mem = s.mem := rfl
@[simp] theorem State.writeV_display (r : RegIdx) (b : Byte) : (s.writeV r b).display = s.display := rfl
@[simp] theorem State.writeV_redraw (r : RegIdx) (b : Byte) : (s.writeV r b).redraw = s.redraw := rfl
@[simp] theorem State.writeV_keypad (r : RegIdx) (b : Byte) : (s.writeV r b).keypad = s.keypad := rfl
@[simp] theorem State.writeV_rng (r : RegIdx) (b : Byte) : (s.writeV r b).rng = s.rng := rfl
@[simp] theorem State.writeV_beep (r : RegIdx) (b : Byte) : (s.writeV r b).beep = s.beep := rfl

@[simp] theorem State.setI_v (w : Word) : (s.setI w).v = s.v := rfl
@[simp] theorem State.setI_i (w : Word) : (s.setI w).i = w := rfl
@[simp] theorem State.setI_pc (w : Word) : (s.setI w).pc = s.pc := rfl
@[simp] theorem State.setI_sp (w : Word) : (s.setI w).sp = s.sp := rfl
@[simp] theorem State.setI_stack (w : Word) : (s.setI w).stack = s.stack := rfl
@[simp] theorem State.setI_dt (w : Word) : (s.setI w).dt = s.dt := rfl
@[simp] theorem State.setI_st (w : Word) : (s.setI w).st = s.st := rfl
@[simp] theorem State.setI_mem (w : Word) : (s.setI w).mem = s.mem := rfl
@[simp] theorem State.setI_display (w : Word) : (s.setI w).display = s.display := rfl
@[simp] theorem State.setI_redraw (w : Word) : (s.setI w).redraw = s.redraw := rfl
@[simp] theorem State.setI_keypad (w : Word) : (s.setI w).keypad = s.keypad := rfl
@[simp] theorem State.setI_rng (w : Word) : (s.setI w).rng = s.rng := rfl
@[simp] theorem State.setI_beep (w : Word) : (s.setI w).beep = s.beep := rfl
@[simp] theorem State.setI_readV (w : Word) (q : RegIdx) : (s.setI w).readV q = s.readV q := rfl

@[simp] theorem State.setPc_v (w : Word) : (s.setPc w).v = s.v := rfl
@[simp] theorem State.setPc_i (w : Word) : (s.setPc w).i = s.i := rfl
@[simp] theorem State.setPc_pc (w : Word) : (s.setPc w).pc = w := rfl
@[simp] theorem State.setPc_sp (w : Word) : (s.setPc w).sp = s.sp := rfl
@[simp] theorem State.setPc_stack (w : Word) : (s.setPc w).stack = s.stack := rfl
@[simp] theorem State.setPc_dt (w : Word) : (s.setPc w).dt = s.dt := rfl
@[simp] theorem State.setPc_st (w : Word) : (s.setPc w).st = s.st := rfl
@[simp] theorem State.setPc_mem (w : Word) : (s.setPc w).mem = s.mem := rfl
@[simp] theorem State.setPc_display (w : Word) : (s.setPc w).display = s.display := rfl
@[simp] theorem State.setPc_redraw (w : Word) : (s.setPc w).redraw = s.redraw := rfl
@[simp] theorem State.setPc_keypad (w : Word) : (s.setPc w).keypad = s.keypad := rfl
@[simp] theorem State.setPc_rng (w : Word) : (s.setPc w).rng = s.rng := rfl
@[simp] theorem State.setPc_beep (w : Word) : (s.setPc w).beep = s.beep := rfl
@[simp] theorem State.setPc_readV (w : Word) (q : RegIdx) : (s.setPc w).readV q = s.readV q := rfl

@[simp] theorem State.setDT_v (b : Byte) : (s.setDT b).v = s.v := rfl
@[simp] theorem State.setDT_i (b : Byte) : (s.setDT b).i = s.i := rfl
@[simp] theorem State.setDT_pc (b : Byte) : (s.setDT b).pc = s.pc := rfl
@[simp] theorem State.setDT_sp (b : Byte) : (s.setDT b).sp = s.sp := rfl
@[simp] theorem State.setDT_stack (b : Byte) : (s.setDT b).stack = s.stack := rfl
@[simp] theorem State.setDT_dt (b : Byte) : (s.setDT b).dt = b := rfl
@[simp] theorem State.setDT_st (b : Byte) : (s.setDT b).st = s.st := rfl
@[simp] theorem State.setDT_mem (b : Byte) : (s.setDT b).mem = s.mem := rfl
@[simp] theorem State.setDT_display (b : Byte) : (s.setDT b).display = s.display := rfl
@[simp] theorem State.setDT_redraw (b : Byte) : (s.setDT b).redraw = s.redraw := rfl
@[simp] theorem State.setDT_keypad (b : Byte) : (s.setDT b).keypad = s.keypad := rfl
@[simp] theorem State.setDT_rng (b : Byte) : (s.setDT b).rng = s.rng := rfl
@[simp] theorem State.setDT_beep (b : Byte) : (s.setDT b).beep = s.beep := rfl
@[simp] theorem State.setDT_readV (b : Byte) (q : RegIdx) : (s.setDT b).readV q = s.readV q := rfl

@[simp] theorem State.setST_v (b : Byte) : (s.setST b).v = s.v := rfl
@[simp] theorem State.setST_i (b : Byte) : (s.setST b).i = s.i := rfl
@[simp] theorem State.setST_pc (b : Byte) : (s.setST b).pc = s.pc := rfl
@[simp] theorem State.setST_sp (b : Byte) : (s.setST b).sp = s.sp := rfl
@[simp] theorem State.setST_stack (b : Byte) : (s.setST b).stack = s.stack := rfl
@[simp] theorem State.setST_dt (b : Byte) : (s.setST b).dt = s.dt := rfl
@[simp] theorem State.setST_st (b : Byte) : (s.setST b).st = b := rfl
@[simp] theorem State.setST_mem (b : Byte) : (s.setST b).mem = s.mem := rfl
@[simp] theorem State.setST_display (b : Byte) : (s.setST b).display = s.display := rfl
@[simp] theorem State.setST_redraw (b : Byte) : (s.setST b).redraw = s.redraw := rfl
@[simp] theorem State.setST_keypad (b : Byte) : (s.setST b).keypad = s.keypad := rfl
@[simp] theorem State.setST_rng (b : Byte) : (s.setST b).rng = s.rng := rfl
@[simp] theorem State.setST_beep (b : Byte) : (s.setST b).beep = s.beep := rfl
@[simp] theorem State.setST_readV (b : Byte) (q : RegIdx) : (s.setST b).readV q = s.readV q := rfl

@[simp] theorem State.setMem_v (m : List Host.Cell) : (s.setMem m).v = s.v := rfl
@[simp] theorem State.setMem_i (m : List Host.Cell) : (s.setMem m).i = s.i := rfl
@[simp] theorem State.setMem_pc (m : List Host.Cell) : (s.setMem m).pc = s.pc := rfl
@[simp] theorem State.setMem_sp (m : List Host.Cell) : (s.setMem m).sp = s.sp := rfl
@[simp] theorem State.setMem_stack (m : List Host.Cell) : (s.setMem m).stack = s.stack := rfl
@[simp] theorem State.setMem_dt (m : List Host.Cell) : (s.setMem m).dt = s.dt := rfl
@[simp] theorem State.setMem_st (m : List Host.Cell) : (s.setMem m).st = s.st := rfl
@[simp] theorem State.setMem_mem (m : List Host.Cell) : (s.setMem m).mem = m := rfl
@[simp] theorem State.setMem_display (m : List Host.Cell) : (s.setMem m).display = s.display := rfl
@[simp] theorem State.setMem_redraw (m : List Host.Cell) : (s.setMem m).redraw = s.redraw := rfl
@[simp] theorem State.setMem_keypad (m : List Host.Cell) : (s.setMem m).keypad = s.keypad := rfl
@[simp] theorem State.setMem_rng (m : List Host.Cell) : (s.setMem m).rng = s.rng := rfl
@[simp] theorem State.setMem_beep (m : List Host.Cell) : (s.setMem m).beep = s.beep := rfl
@[simp] theorem State.setMem_readV (m : List Host.Cell) (q : RegIdx) : (s.setMem m).readV q = s.readV q := rfl

@[simp] theorem State.setDisplay_v (d : Display) : (s.setDisplay d).v = s.v := rfl
@[simp] theorem State.setDisplay_i (d : Display) : (s.setDisplay d).i = s.i := rfl
@[simp] theorem State.setDisplay_pc (d : Display) : (s.setDisplay d).pc = s.pc := rfl
@[simp] theorem State.setDisplay_sp (d : Display) : (s.setDisplay d).sp = s.sp := rfl
@[simp] theorem State.setDisplay_stack (d : Display) : (s.setDisplay d).stack = s.stack := rfl
@[simp] theorem State.setDisplay_dt (d : Display) : (s.setDisplay d).dt = s.dt := rfl
@[simp] theorem State.setDisplay_st (d : Display) : (s.setDisplay d).st = s.st := rfl
@[simp] theorem State.setDisplay_mem (d : Display) : (s.setDisplay d).mem = s.mem := rfl
@[simp] theorem State.setDisplay_display (d : Display) : (s.setDisplay d).display = d := rfl
@[simp] theorem State.setDisplay_redraw (d : Display) : (s.setDisplay d).redraw = s.redraw := rfl
@[simp] theorem State.setDisplay_keypad (d : Display) : (s.setDisplay d).keypad = s.keypad := rfl
@[simp] theorem State.setDisplay_rng (d : Display) : (s.setDisplay d).rng = s.rng := rfl
@[simp] theorem State.setDisplay_beep (d : Display) : (s.setDisplay d).beep = s.beep := rfl
@[simp] theorem State.setDisplay_readV (d : Display) (q : RegIdx) : (s.setDisplay d).readV q = s.readV q := rfl

@[simp] theorem State.setRedraw_v (b : Bool) : (s.setRedraw b).v = s.v := rfl
@[simp] theorem State.setRedraw_i (b : Bool) : (s.setRedraw b).i = s.i := rfl
@[simp] theorem State.setRedraw_pc (b : Bool) : (s.setRedraw b).pc = s.pc := rfl
@[simp] theorem State.setRedraw_sp (b : Bool) : (s.setRedraw b).sp = s.sp := rfl
@[simp] theorem State.setRedraw_stack (b : Bool) : (s.setRedraw b).stack = s.stack := rfl
@[simp] theorem State.setRedraw_dt (b : Bool) : (s.setRedraw b).dt = s.dt := rfl
@[simp] theorem State.setRedraw_st (b : Bool) : (s.setRedraw b).st = s.st := rfl
@[simp] theorem State.setRedraw_mem (b : Bool) : (s.setRedraw b).mem = s.mem := rfl
@[simp] theorem State.setRedraw_display (b : Bool) : (s.setRedraw b).display = s.display := rfl
@[simp] theorem State.setRedraw_redraw (b : Bool) : (s.setRedraw b).redraw = b := rfl
@[simp] theorem State.setRedraw_keypad (b : Bool) : (s.setRedraw b).keypad = s.keypad := rfl
@[simp] theorem State.setRedraw_rng (b : Bool) : (s.setRedraw b).rng = s.rng := rfl
@[simp] theorem State.setRedraw_beep (b : Bool) : (s.setRedraw b).beep = s.beep := rfl
@[simp] theorem State.setRedraw_readV (b : Bool) (q : RegIdx) : (s.setRedraw b).readV q = s.readV q := rfl

@[simp] theorem State.setBeep_v (b : Bool) : (s.setBeep b).v = s.v := rfl
@[simp] theorem State.setBeep_i (b : Bool) : (s.setBeep b).i = s.i := rfl
@[simp] theorem State.setBeep_pc (b : Bool) : (s.setBeep b).pc = s.pc := rfl
@[simp] theorem State.setBeep_sp (b : Bool) : (s.setBeep b).sp = s.sp := rfl
@[simp] theorem State.setBeep_stack (b : Bool) : (s.setBeep b).stack = s.stack := rfl
@[simp] theorem State.setBeep_dt (b : Bool) : (s.setBeep b).dt = s.dt := rfl
@[simp] theorem State.setBeep_st (b : Bool) : (s.setBeep b).st = s.st := rfl
@[simp] theorem State.setBeep_mem (b : Bool) : (s.setBeep b).mem = s.mem := rfl
@[simp] theorem State.setBeep_display (b : Bool) : (s.setBeep b).display = s.display := rfl
@[simp] theorem State.setBeep_redraw (b : Bool) : (s.setBeep b).redraw = s.redraw := rfl
@[simp] theorem State.setBeep_keypad (b : Bool) : (s.setBeep b).keypad = s.keypad := rfl
@[simp] theorem State.setBeep_rng (b : Bool) : (s.setBeep b).rng = s.rng := rfl
@[simp] theorem State.setBeep_beep (b : Bool) : (s.setBeep b).beep = b := rfl
@[simp] theorem State.setBeep_readV (b : Bool) (q : RegIdx) : (s.setBeep b).readV q = s.readV q := rfl

@[simp] theorem State.setKeypad_v (k : Vector Bool 16) : (s.setKeypad k).v = s.v := rfl
@[simp] theorem State.setKeypad_i (k : Vector Bool 16) : (s.setKeypad k).i = s.i := rfl
@[simp] theorem State.setKeypad_pc (k : Vector Bool 16) : (s.setKeypad k).pc = s.pc := rfl
@[simp] theorem State.setKeypad_sp (k : Vector Bool 16) : (s.setKeypad k).sp = s.sp := rfl
@[simp] theorem State.setKeypad_stack (k : Vector Bool 16) : (s.setKeypad k).stack = s.stack := rfl
@[simp] theorem State.setKeypad_dt (k : Vector Bool 16) : (s.setKeypad k).dt = s.dt := rfl
@[simp] theorem State.setKeypad_st (k : Vector Bool 16) : (s.setKeypad k).st = s.st := rfl
@[simp] theorem State.setKeypad_mem (k : Vector Bool 16) : (s.setKeypad k).mem = s.mem := rfl
@[simp] theorem State.setKeypad_display (k : Vector Bool 16) : (s.setKeypad k).display = s.display := rfl
@[simp] theorem State.setKeypad_redraw (k : Vector Bool 16) : (s.setKeypad k).redraw = s.redraw := rfl
@[simp] theorem State.setKeypad_keypad (k : Vector Bool 16) : (s.setKeypad k).keypad = k := rfl
@[simp] theorem State.setKeypad_rng (k : Vector Bool 16) : (s.setKeypad k).rng = s.rng := rfl
@[simp] theorem State.setKeypad_beep (k : Vector Bool 16) : (s.setKeypad k).beep = s.beep := rfl
@[simp] theorem State.setKeypad_readV (k : Vector Bool 16) (q : RegIdx) : (s.setKeypad k).readV q = s.readV q := rfl

@[simp] theorem State.setRng_v (r : RandomSource) : (s.setRng r).v = s.v := rfl
@[simp] theorem State.setRng_i (r : RandomSource) : (s.setRng r).i = s.i := rfl
@[simp] theorem State.setRng_pc (r : RandomSource) : (s.setRng r).pc = s.pc := rfl
@[simp] theorem State.setRng_sp (r : RandomSource) : (s.setRng r).sp = s.sp := rfl
@[simp] theorem State.setRng_stack (r : RandomSource) : (s.setRng r).stack = s.stack := rfl
@[simp] theorem State.setRng_dt (r : RandomSource) : (s.setRng r).dt = s.dt := rfl
@[simp] theorem State.setRng_st (r : RandomSource) : (s.setRng r).st = s.st := rfl
@[simp] theorem State.setRng_mem (r : RandomSource) : (s.setRng r).mem = s.mem := rfl
@[simp] theorem State.setRng_display (r : RandomSource) : (s.setRng r).display = s.display := rfl
@[simp] theorem State.setRng_redraw (r : RandomSource) : (s.setRng r).redraw = s.redraw := rfl
@[simp] theorem State.setRng_keypad (r : RandomSource) : (s.setRng r).keypad = s.keypad := rfl
@[simp] theorem State.setRng_rng (r : RandomSource) : (s.setRng r).rng = r := rfl
@[simp] theorem State.setRng_beep (r : RandomSource) : (s.setRng r).beep = s.beep := rfl
@[simp] theorem State.setRng_readV (r : RandomSource) (q : RegIdx) : (s.setRng r).readV q = s.readV q := rfl

@[simp] theorem State.advance_v : s.advance.v = s.v := rfl
@[simp] theorem State.advance_i : s.advance.i = s.i := rfl
@[simp] theorem State.advance_pc : s.advance.pc = s.pc + 2#16 := rfl
@[simp] theorem State.advance_sp : s.advance.sp = s.sp := rfl
@[simp] theorem State.advance_stack : s.advance.stack = s.stack := rfl
@[simp] theorem State.advance_dt : s.advance.dt = s.dt := rfl
@[simp] theorem State.advance_st : s.advance.st = s.st := rfl
@[simp] theorem State.advance_mem : s.advance.mem = s.mem := rfl
@[simp] theorem State.advance_display : s.advance.display = s.display := rfl
@[simp] theorem State.advance_redraw : s.advance.redraw = s.redraw := rfl
@[simp] theorem State.advance_keypad : s.advance.keypad = s.keypad := rfl
@[simp] theorem State.advance_rng : s.advance.rng = s.rng := rfl
@[simp] theorem State.advance_beep : s.advance.beep = s.beep := rfl
@[simp] theorem State.advance_readV (q : RegIdx) : s.advance.readV q = s.readV q := rfl

@[simp] theorem State.skip_v : s.skip.v = s.v := rfl
@[simp] theorem State.skip_i : s.skip.i = s.i := rfl
@[simp] theorem State.skip_pc : s.skip.pc = s.pc + 4#16 := rfl
@[simp] theorem State.skip_sp : s.skip.sp = s.sp := rfl
@[simp] theorem State.skip_stack : s.skip.stack = s.stack := rfl
@[simp] theorem State.skip_dt : s.skip.dt = s.dt := rfl
@[simp] theorem State.skip_st : s.skip.st = s.st := rfl
@[simp] theorem State.skip_mem : s.skip.mem = s.mem := rfl
@[simp] theorem State.skip_display : s.skip.display = s.display := rfl
@[simp] theorem State.skip_redraw : s.skip.redraw = s.redraw := rfl
@[simp] theorem State.skip_keypad : s.skip.keypad = s.keypad := rfl
@[simp] theorem State.skip_rng : s.skip.rng = s.rng := rfl
@[simp] theorem State.skip_beep : s.skip.beep = s.beep := rfl
@[simp] theorem State.skip_readV (q : RegIdx) : s.skip.readV q = s.readV q := rfl

@[simp] theorem State.countDraw_v : s.countDraw.v = s.v := rfl
@[simp] theorem State.countDraw_i : s.countDraw.i = s.i := rfl
@[simp] theorem State.countDraw_pc : s.countDraw.pc = s.pc := rfl
@[simp] theorem State.countDraw_sp : s.countDraw.sp = s.sp := rfl
@[simp] theorem State.countDraw_stack : s.countDraw.stack = s.stack := rfl
@[simp] theorem State.countDraw_dt : s.countDraw.dt = s.dt := rfl
@[simp] theorem State.countDraw_st : s.countDraw.st = s.st := rfl
@[simp] theorem State.countDraw_mem : s.countDraw.mem = s.mem := rfl
@[simp] theorem State.countDraw_display : s.countDraw.display = s.display := rfl
@[simp] theorem State.countDraw_redraw : s.countDraw.redraw = s.redraw := rfl
@[simp] theorem State.countDraw_keypad : s.countDraw.keypad = s.keypad := rfl
@[simp] theorem State.countDraw_rng : s.countDraw.rng = ⟨s.rng.seed, s.rng.draws + 1⟩ := rfl
@[simp] theorem State.countDraw_beep : s.countDraw.beep = s.beep := rfl
@[simp] theorem State.countDraw_readV (q : RegIdx) : s.countDraw.readV q = s.readV q := rfl

@[simp] theorem timerTick_v : (timerTick s).v = s.v := rfl
@[simp] theorem timerTick_i : (timerTick s).i = s.i := rfl
@[simp] theorem timerTick_pc : (timerTick s).pc = s.pc := rfl
@[simp] theorem timerTick_sp : (timerTick s).sp = s.sp := rfl
@[simp] theorem timerTick_stack : (timerTick s).stack = s.stack := rfl
@[simp] theorem timerTick_dt : (timerTick s).dt = tickDown s.dt := rfl
@[simp] theorem timerTick_st : (timerTick s).st = tickDown s.st := rfl
@[simp] theorem timerTick_mem : (timerTick s).mem = s.mem := rfl
@[simp] theorem timerTick_display : (timerTick s).display = s.display := rfl
@[simp] theorem timerTick_redraw : (timerTick s).redraw = s.redraw := rfl
@[simp] theorem timerTick_keypad : (timerTick s).keypad = s.keypad := rfl
@[simp] theorem timerTick_rng : (timerTick s).rng = s.rng := rfl
@[simp] theorem timerTick_beep : (timerTick s).beep = (s.st == 0x01#8) := rfl
@[simp] theorem timerTick_readV (q : RegIdx) : (timerTick s).readV q = s.readV q := rfl

/-- A skip changes PC alone. -/
@[simp] theorem State.skipIf_v (c : Bool) : (s.skipIf c).v = s.v := by cases c <;> rfl
@[simp] theorem State.skipIf_i (c : Bool) : (s.skipIf c).i = s.i := by cases c <;> rfl
@[simp] theorem State.skipIf_pc (c : Bool) :
    (s.skipIf c).pc = if c then s.pc + 4#16 else s.pc + 2#16 := by cases c <;> rfl
@[simp] theorem State.skipIf_sp (c : Bool) : (s.skipIf c).sp = s.sp := by cases c <;> rfl
@[simp] theorem State.skipIf_stack (c : Bool) : (s.skipIf c).stack = s.stack := by cases c <;> rfl
@[simp] theorem State.skipIf_dt (c : Bool) : (s.skipIf c).dt = s.dt := by cases c <;> rfl
@[simp] theorem State.skipIf_st (c : Bool) : (s.skipIf c).st = s.st := by cases c <;> rfl
@[simp] theorem State.skipIf_mem (c : Bool) : (s.skipIf c).mem = s.mem := by cases c <;> rfl
@[simp] theorem State.skipIf_display (c : Bool) : (s.skipIf c).display = s.display := by cases c <;> rfl
@[simp] theorem State.skipIf_redraw (c : Bool) : (s.skipIf c).redraw = s.redraw := by cases c <;> rfl
@[simp] theorem State.skipIf_keypad (c : Bool) : (s.skipIf c).keypad = s.keypad := by cases c <;> rfl
@[simp] theorem State.skipIf_rng (c : Bool) : (s.skipIf c).rng = s.rng := by cases c <;> rfl
@[simp] theorem State.skipIf_beep (c : Bool) : (s.skipIf c).beep = s.beep := by cases c <;> rfl
@[simp] theorem State.skipIf_readV (c : Bool) (q : RegIdx) : (s.skipIf c).readV q = s.readV q := by
  cases c <;> rfl

end Sys2Proof.Machine
end

