-- ==== Sys2Proof/Laws/Ops.lean ====
section
/-!
SUPPORT. One lemma per shared operation saying what it does: registers, memory and its canonical
form, the address check, the stack, the display, and the step cycle.
-/

namespace Sys2Proof.Machine

/-! ## Registers -/

theorem State.readV_writeV (s : State) (r q : RegIdx) (b : Byte) :
    (s.writeV r b).readV q = if q = r then b else s.readV q := by
  simp only [State.readV, State.writeV, Vector.get_eq_getElem, Vector.getElem_set]
  by_cases h : q = r
  · simp [h]
  · have : r.toNat ≠ q.toNat := fun e => h (BitVec.eq_of_toNat_eq e.symm)
    simp [h, this]

@[simp] theorem State.readV_writeV_same (s : State) (r : RegIdx) (b : Byte) :
    (s.writeV r b).readV r = b := by simp [State.readV_writeV]

theorem State.readV_writeV_other (s : State) {r q : RegIdx} (b : Byte) (h : q ≠ r) :
    (s.writeV r b).readV q = s.readV q := by simp [State.readV_writeV, h]

/-- The result is written after the flag, so it survives in VF (42_arith_logic.md R250). -/
theorem State.readV_writeFlagThenResult (s : State) (f : Byte) (x q : RegIdx) (b : Byte) :
    (s.writeFlagThenResult f x b).readV q = if q = x then b else if q = vf then f else s.readV q := by
  simp only [State.writeFlagThenResult, State.readV_writeV]

/-- A flag is 1 exactly when its condition holds (10_state.md R31). -/
theorem flagByte_eq_one (b : Bool) : flagByte b = 0x01#8 ↔ b = true := by cases b <;> decide

/-! ## Memory -/

theorem Memory.lookup_insert (a c : Nat) (b : Byte) (m : List Host.Cell) :
    Memory.lookup (Memory.insert a b m) c = if c = a then some b else Memory.lookup m c := by
  induction m with
  | nil => simp [Memory.insert, Memory.lookup, eq_comm]
  | cons cell m ih =>
    obtain ⟨k, d⟩ := cell
    simp only [Memory.insert]
    split
    · simp [Memory.lookup, eq_comm]
    · split
      · subst k
        by_cases h : a = c <;> simp [Memory.lookup, h, eq_comm]
      · simp only [Memory.lookup, ih]
        by_cases h : k = c
        · subst h; simp_all
        · simp [h]

theorem Memory.lookup_remove (a c : Nat) (m : List Host.Cell) :
    Memory.lookup (Memory.remove a m) c = if c = a then none else Memory.lookup m c := by
  induction m with
  | nil => simp [Memory.remove, Memory.lookup]
  | cons cell m ih =>
    obtain ⟨k, d⟩ := cell
    simp only [Memory.remove, List.filter_cons] at ih ⊢
    by_cases hk : k = a
    · subst k
      by_cases h : c = a
      · simp_all
      · have h' : ¬ a = c := fun e => h e.symm
        simp_all [Memory.lookup]
    · by_cases h : k = c
      · subst h; simp [Memory.lookup, hk]
      · simp [Memory.lookup, hk, h, ih]

/-- What a store does to every address, in any memory (20_memory.md R78). -/
theorem Memory.read_write (m : List Host.Cell) (a c : Nat) (b : Byte) :
    Memory.read (Memory.write m a b) c = if c = a then b else Memory.read m c := by
  unfold Memory.read Memory.write
  split
  · rename_i h
    rw [Memory.lookup_remove]
    by_cases hc : c = a <;> simp [hc, h]
  · rw [Memory.lookup_insert]
    by_cases hc : c = a <;> simp [hc]

@[simp] theorem Memory.read_write_same (m : List Host.Cell) (a : Nat) (b : Byte) :
    Memory.read (Memory.write m a b) a = b := by simp [Memory.read_write]

theorem Memory.read_write_other (m : List Host.Cell) {a c : Nat} (b : Byte) (h : c ≠ a) :
    Memory.read (Memory.write m a b) c = Memory.read m c := by simp [Memory.read_write, h]

@[simp] theorem Memory.read_nil (a : Nat) : Memory.read [] a = Memory.initial a := rfl

/-- What storing a run of bytes does to every address. -/
theorem Memory.read_writeBytes (bs : List Byte) (m : List Host.Cell) (a c : Nat) :
    Memory.read (Memory.writeBytes m a bs) c =
      if a ≤ c then (bs[c - a]?).getD (Memory.read m c) else Memory.read m c := by
  induction bs generalizing m a with
  | nil => simp [Memory.writeBytes]
  | cons b bs ih =>
    rw [Memory.writeBytes, ih, Memory.read_write]
    rcases Nat.lt_trichotomy c a with h | h | h
    · have h1 : ¬ a + 1 ≤ c := by omega
      have h2 : ¬ a ≤ c := by omega
      have h3 : c ≠ a := by omega
      simp [h1, h2, h3]
    · subst h
      simp
    · have h1 : a + 1 ≤ c := by omega
      have h2 : a ≤ c := by omega
      have h3 : c ≠ a := by omega
      have h4 : c - a = (c - (a + 1)) + 1 := by omega
      simp [h1, h2, h3, h4]

theorem Memory.read_writeBytes_outside (bs : List Byte) (m : List Host.Cell) {a c : Nat}
    (h : ¬(a ≤ c ∧ c < a + bs.length)) :
    Memory.read (Memory.writeBytes m a bs) c = Memory.read m c := by
  rw [Memory.read_writeBytes]
  split
  · have : bs[c - a]? = none := List.getElem?_eq_none (by omega)
    simp [this]
  · rfl

theorem Memory.read_writeBytes_inside (bs : List Byte) (m : List Host.Cell) (a k : Nat)
    (h : k < bs.length) : Memory.read (Memory.writeBytes m a bs) (a + k) = bs[k] := by
  simp [Memory.read_writeBytes, h]

/-! ### The canonical form -/

theorem Memory.mem_insert {a : Nat} {b : Byte} {m : List Host.Cell} {c : Host.Cell}
    (h : c ∈ Memory.insert a b m) : c = (a, b) ∨ c ∈ m := by
  induction m with
  | nil => simpa [Memory.insert] using h
  | cons cell m ih =>
    obtain ⟨k, d⟩ := cell
    simp only [Memory.insert] at h
    split at h
    · simpa using h
    · split at h
      · rcases List.mem_cons.1 h with h | h
        · exact .inl h
        · exact .inr (List.mem_cons_of_mem _ h)
      · rcases List.mem_cons.1 h with h | h
        · exact .inr (by simp [h])
        · rcases ih h with h | h
          · exact .inl h
          · exact .inr (List.mem_cons_of_mem _ h)

theorem Memory.insert_wf {a : Nat} {b : Byte} {m : List Host.Cell} (hm : Memory.wf m)
    (ha : a < memSize) (hb : b ≠ Memory.initial a) : Memory.wf (Memory.insert a b m) := by
  obtain ⟨hs, hc⟩ := hm
  refine ⟨?_, fun c h => ?_⟩
  · clear hc
    induction m with
    | nil => simp [Memory.insert]
    | cons cell m ih =>
      obtain ⟨k, d⟩ := cell
      obtain ⟨hk, hs'⟩ := List.pairwise_cons.1 hs
      simp only [Memory.insert]
      split
      · rename_i hlt
        refine List.pairwise_cons.2 ⟨fun c h => ?_, hs⟩
        rcases List.mem_cons.1 h with h | h
        · simpa [h] using hlt
        · exact Nat.lt_trans hlt (hk c h)
      · split
        · rename_i _ heq
          subst heq
          exact List.pairwise_cons.2 ⟨fun c h => hk c h, hs'⟩
        · rename_i hlt hne
          refine List.pairwise_cons.2 ⟨fun c h => ?_, ih hs'⟩
          rcases Memory.mem_insert h with h | h
          · subst h
            show k < a
            omega
          · exact hk c h
  · rcases Memory.mem_insert h with h | h
    · subst h
      exact ⟨ha, hb⟩
    · exact hc c h

theorem Memory.remove_wf {m : List Host.Cell} (a : Nat) (hm : Memory.wf m) :
    Memory.wf (Memory.remove a m) :=
  ⟨hm.1.filter _, fun c h => hm.2 c (List.mem_filter.1 h).1⟩

/-- A store keeps the canonical form. -/
theorem Memory.write_wf {m : List Host.Cell} {a : Nat} (b : Byte) (hm : Memory.wf m)
    (ha : a < memSize) : Memory.wf (Memory.write m a b) := by
  unfold Memory.write
  split
  · exact Memory.remove_wf a hm
  · exact Memory.insert_wf hm ha ‹_›

/-- Storing a run of bytes inside memory keeps the canonical form. -/
theorem Memory.writeBytes_wf (bs : List Byte) {m : List Host.Cell} {a : Nat} (hm : Memory.wf m)
    (ha : a + bs.length ≤ memSize) : Memory.wf (Memory.writeBytes m a bs) := by
  induction bs generalizing m a with
  | nil => exact hm
  | cons b bs ih =>
    simp only [List.length_cons] at ha
    exact ih (Memory.write_wf b hm (by omega)) (by omega)

theorem Memory.reset_wf : Memory.wf State.reset.mem := by
  simp [State.reset, Memory.wf]

theorem Memory.lookup_of_mem {m : List Host.Cell} (hm : Memory.wf m) {c : Host.Cell} (h : c ∈ m) :
    Memory.lookup m c.1 = some c.2 := by
  obtain ⟨hs, -⟩ := hm
  induction m with
  | nil => cases h
  | cons cell m ih =>
    obtain ⟨k, d⟩ := cell
    obtain ⟨hk, hs'⟩ := List.pairwise_cons.1 hs
    rcases List.mem_cons.1 h with h | h
    · subst h; simp [Memory.lookup]
    · have : k < c.1 := hk c h
      simp [Memory.lookup, Nat.ne_of_lt this, ih h hs']

theorem Memory.mem_of_lookup {m : List Host.Cell} {a : Nat} {b : Byte}
    (h : Memory.lookup m a = some b) : (a, b) ∈ m := by
  induction m with
  | nil => cases h
  | cons cell m ih =>
    obtain ⟨k, d⟩ := cell
    simp only [Memory.lookup] at h
    split at h
    · simp_all
    · exact List.mem_cons_of_mem _ (ih h)

/-- Equal memories are equal data: two canonical memories that read alike are the same list. -/
theorem Memory.ext_of_wf {m m' : List Host.Cell} (hm : Memory.wf m) (hm' : Memory.wf m')
    (h : ∀ a, Memory.read m a = Memory.read m' a) : m = m' := by
  have sub : ∀ {p q : List Host.Cell}, Memory.wf p → (∀ a, Memory.read p a = Memory.read q a) →
      ∀ c ∈ p, c ∈ q := by
    intro p q hp hr c hc
    have h1 := Memory.lookup_of_mem hp hc
    have h2 := hr c.1
    have h3 := (hp.2 c hc).2
    simp only [Memory.read, h1, Option.getD_some] at h2
    cases hq : Memory.lookup q c.1 with
    | none => simp [hq] at h2; exact absurd h2 h3
    | some d =>
      rw [hq, Option.getD_some] at h2
      rw [← h2] at hq
      exact Memory.mem_of_lookup hq
  have irr : ∀ c : Host.Cell, ¬ c.1 < c.1 := fun c => Nat.lt_irrefl _
  have asymm : ∀ {p : List Host.Cell}, p.Pairwise (fun c d => c.1 < d.1) → p.Nodup := fun hp =>
    hp.imp (fun hlt e => by subst e; exact Nat.lt_irrefl _ hlt)
  have hperm : m.Perm m' := (List.perm_ext_iff_of_nodup (asymm hm.1) (asymm hm'.1)).2
    (fun c => ⟨sub hm h c, sub hm' (fun a => (h a).symm) c⟩)
  exact hperm.eq_of_pairwise (fun c d _ _ h1 h2 => absurd (Nat.lt_trans h1 h2) (irr c)) hm.1 hm'.1

@[simp] theorem Memory.length_readBytes (m : List Host.Cell) (a n : Nat) :
    (Memory.readBytes m a n).length = n := by simp [Memory.readBytes]

theorem Memory.getElem?_readBytes (m : List Host.Cell) (a n k : Nat) :
    (Memory.readBytes m a n)[k]? = if k < n then some (Memory.read m (a + k)) else none := by
  by_cases h : k < n <;> simp [Memory.readBytes, h]

/-! ## The address check -/

theorem lowestBadAddress_eq_none {a n : Nat} :
    lowestBadAddress a n = none ↔ n = 0 ∨ a + n ≤ memSize := by
  unfold lowestBadAddress
  split <;> simp <;> omega

theorem lowestBadAddress_eq_some {a n b : Nat} :
    lowestBadAddress a n = some b ↔ 0 < n ∧ memSize < a + n ∧ b = max a memSize := by
  unfold lowestBadAddress
  split
  · simp only [Option.some.injEq]
    omega
  · simp only [reduceCtorEq, false_iff]
    omega

/-- An access inside memory is performed. -/
theorem withAccess_inside {s : State} {w : Word} {a n : Nat} {r : Result}
    (h : n = 0 ∨ a + n ≤ memSize) : withAccess s w a n r = r := by
  simp [withAccess, lowestBadAddress_eq_none.2 h]

/-- An access that includes an address past memory raises `AddressOutOfRange` (R75). -/
theorem withAccess_outside {s : State} {w : Word} {a n : Nat} {r : Result}
    (h0 : 0 < n) (h : memSize < a + n) :
    withAccess s w a n r = .fault (.addressOutOfRange s.pc (some w) (max a memSize)) := by
  simp [withAccess, raise, lowestBadAddress_eq_some.2 ⟨h0, h, rfl⟩]

/-- If an access answers a next state, it was inside memory. -/
theorem withAccess_next {s t : State} {w : Word} {a n : Nat} {r : Result}
    (h : withAccess s w a n r = .next t) : (n = 0 ∨ a + n ≤ memSize) ∧ r = .next t := by
  unfold withAccess raise at h
  split at h
  · cases h
  · exact ⟨lowestBadAddress_eq_none.1 ‹_›, h⟩

/-- If an access of an instruction that completes fails, it is for an address past memory. -/
theorem withAccess_fault {s t : State} {w : Word} {a n : Nat} {f : Fault}
    (h : withAccess s w a n (.next t) = .fault f) :
    0 < n ∧ memSize < a + n ∧ f = .addressOutOfRange s.pc (some w) (max a memSize) := by
  unfold withAccess raise at h
  split at h
  · rename_i hb
    obtain ⟨h0, h1, rfl⟩ := lowestBadAddress_eq_some.1 hb
    cases h
    exact ⟨h0, h1, rfl⟩
  · cases h

/-! ## The keypad -/

theorem keyIndex_some {b : Byte} (h : b.toNat ≤ 15) : keyIndex b = some (b.setWidth 4) := by
  simp [keyIndex, h]

theorem keyIndex_none {b : Byte} (h : 15 < b.toNat) : keyIndex b = none := by simp [keyIndex, h]

/-- A byte that names a key, tested as that key. -/
theorem keyIndex_of_toNat {b : Byte} {k : Nibble} (h : b.toNat = k.toNat) : keyIndex b = some k := by
  have hk : k.toNat < 16 := k.isLt
  rw [keyIndex_some (by omega)]
  congr 1
  apply BitVec.eq_of_toNat_eq
  simp [h, hk]

theorem State.mem_pressedKeys (s : State) (k : Nibble) : k ∈ s.pressedKeys ↔ s.key k = true := by
  simp only [State.pressedKeys, List.mem_filter, List.mem_map, List.mem_range]
  exact ⟨fun h => h.2, fun h => ⟨⟨k.toNat, k.isLt, by simp⟩, h⟩⟩

/-- The pressed keys stand in rising order, so the first of them is the lowest (D7). -/
theorem State.pressedKeys_sorted (s : State) :
    s.pressedKeys.Pairwise (fun a b => a.toNat < b.toNat) := by
  unfold State.pressedKeys
  refine List.Pairwise.filter _ ?_
  decide

/-! ## Runs of registers -/

theorem State.lowRegs_length (s : State) (x : RegIdx) : (s.lowRegs x).length = x.toNat + 1 := by
  simp [State.lowRegs]

theorem State.getElem?_lowRegs (s : State) (x : RegIdx) (k : Nat) :
    (s.lowRegs x)[k]? = if k ≤ x.toNat then some (s.readV (BitVec.ofNat 4 k)) else none := by
  by_cases h : k ≤ x.toNat
  · simp [State.lowRegs, h, Nat.lt_succ_of_le h]
  · simp [State.lowRegs, h]

/-- What loading a run of registers does to every register. -/
theorem State.readV_writeRegs (bs : List Byte) (s : State) (k : Nat) (hk : k + bs.length ≤ 16)
    (q : RegIdx) :
    (s.writeRegs k bs).readV q =
      if k ≤ q.toNat then (bs[q.toNat - k]?).getD (s.readV q) else s.readV q := by
  induction bs generalizing s k with
  | nil => simp [State.writeRegs]
  | cons b bs ih =>
    simp only [List.length_cons] at hk
    rw [State.writeRegs, ih _ _ (by omega), State.readV_writeV]
    have hq : q = BitVec.ofNat 4 k ↔ q.toNat = k := by
      rw [← BitVec.toNat_inj, BitVec.toNat_ofNat, Nat.mod_eq_of_lt (by omega)]
    simp only [hq]
    rcases Nat.lt_trichotomy q.toNat k with h | h | h
    · have h1 : ¬ k + 1 ≤ q.toNat := by omega
      have h2 : ¬ k ≤ q.toNat := by omega
      have h3 : q.toNat ≠ k := by omega
      simp [h1, h2, h3]
    · simp [h]
    · have h1 : k + 1 ≤ q.toNat := by omega
      have h2 : k ≤ q.toNat := by omega
      have h3 : q.toNat ≠ k := by omega
      have h4 : q.toNat - k = (q.toNat - (k + 1)) + 1 := by omega
      simp [h1, h2, h3, h4]

/-- Loading registers changes nothing but registers. -/
theorem State.writeRegs_eq (bs : List Byte) (s : State) (k : Nat) :
    s.writeRegs k bs = { s with v := (s.writeRegs k bs).v } := by
  induction bs generalizing s k with
  | nil => rfl
  | cons b bs ih =>
    rw [State.writeRegs, ih]
    rfl

/-! ## The return stack -/

theorem State.pushPc_none {s : State} : s.pushPc = none ↔ s.sp.val = 16 := by
  unfold State.pushPc
  split <;> simp <;> omega

/-- What a push answers. -/
theorem State.pushPc_some {s t : State} (h : s.pushPc = some t) :
    ∃ hlt : s.sp.val < 16, t.sp.val = s.sp.val + 1 ∧
      t = { s with stack := s.stack.set s.sp.val s.pc hlt, sp := t.sp } := by
  unfold State.pushPc at h
  split at h
  · rename_i hlt
    cases h
    exact ⟨hlt, rfl, rfl⟩
  · cases h

theorem State.pop_none {s : State} : s.pop = none ↔ s.sp.val = 0 := by
  unfold State.pop
  split <;> simp <;> omega

/-- What a pop answers. -/
theorem State.pop_some {s t : State} {w : Word} (h : s.pop = some (t, w)) :
    ∃ hpos : 0 < s.sp.val, t.sp.val + 1 = s.sp.val ∧ t = { s with sp := t.sp } ∧
      w = s.stack[s.sp.val - 1]'(by omega) := by
  unfold State.pop at h
  split at h
  · rename_i hpos
    cases h
    exact ⟨hpos, by simp; omega, rfl, rfl⟩
  · cases h

/-! ## The display -/

theorem pixel_setPixel (d : Display) (r r' : Fin 32) (c c' : Fin 64) (b : Byte) :
    pixel (setPixel d r c b) r' c' = if r' = r ∧ c' = c then b else pixel d r' c' := by
  simp only [pixel, setPixel, Vector.get_eq_getElem, Vector.getElem_set]
  by_cases hr : r.val = r'.val
  · have hr' : r' = r := Fin.ext hr.symm
    subst hr'
    by_cases hc : c.val = c'.val
    · have hc' : c' = c := Fin.ext hc.symm
      subst hc'
      simp
    · have hc' : c' ≠ c := fun e => hc (by rw [e])
      simp [hc, hc']
  · have hr' : r' ≠ r := fun e => hr (by rw [e])
    simp [hr, hr']

@[simp] theorem pixel_clearDisplay (r : Fin 32) (c : Fin 64) : pixel clearDisplay r c = 0x00#8 := by
  simp [pixel, clearDisplay, Vector.get_eq_getElem]

/-! ## The step cycle -/

theorem tickDown_toNat (b : Byte) : (tickDown b).toNat = b.toNat - 1 := by
  unfold tickDown
  split
  · simp_all
  · rename_i h
    have : b.toNat ≠ 0 := fun e => h (BitVec.eq_of_toNat_eq (by simpa using e))
    simp [BitVec.toNat_sub]
    omega

/-- When the fetch answers a word, both bytes were in memory (40_step_cycle.md R141). -/
theorem fetch_ok {s : State} {w : Word} (h : fetch s = .ok w) :
    s.pc.toNat + 2 ≤ memSize ∧
      w = wordOfBytes (Memory.read s.mem s.pc.toNat) (Memory.read s.mem (s.pc.toNat + 1)) := by
  unfold fetch at h
  split at h
  · cases h
  · rename_i hn
    cases h
    refine ⟨?_, rfl⟩
    rcases lowestBadAddress_eq_none.1 hn with h | h <;> omega

theorem fetch_error {s : State} {f : Fault} (h : fetch s = .error f) :
    memSize < s.pc.toNat + 2 ∧ f = .addressOutOfRange s.pc none (max s.pc.toNat memSize) := by
  unfold fetch at h
  split at h
  · rename_i hb
    cases h
    obtain ⟨-, h1, h2⟩ := lowestBadAddress_eq_some.1 hb
    exact ⟨h1, by rw [h2]⟩
  · cases h

theorem completeStep_next {r : Result} {t : State} (h : completeStep r = .next t) :
    ∃ u, r = .next u ∧ t = timerTick u := by
  cases r with
  | next u => cases h; exact ⟨u, rfl, rfl⟩
  | fault f => cases h
  | refused r => cases h

/-- Everything a completed step can be: a fetched word, its instruction, what the instruction did,
and the tick (R140). -/
theorem stepCycle_next {dec : Word → Except Undefined Instr} {ex : Instr → State → Result}
    {s t : State} (h : stepCycle dec ex s = .next t) :
    ∃ w i u, fetch s = .ok w ∧ dec w = .ok i ∧ ex i s = .next u ∧ t = timerTick u := by
  unfold stepCycle raise at h
  split at h
  · cases h
  · rename_i w hw
    split at h
    · cases h
    · rename_i i hi
      obtain ⟨u, hu, ht⟩ := completeStep_next h
      exact ⟨w, i, u, hw, hi, hu, ht⟩

/-- Everything a failed step can be: the fetch, the decode or the instruction failed (R503). -/
theorem stepCycle_fault {dec : Word → Except Undefined Instr} {ex : Instr → State → Result}
    {s : State} {f : Fault} (h : stepCycle dec ex s = .fault f) :
    fetch s = .error f ∨
    (∃ w e, fetch s = .ok w ∧ dec w = .error e ∧ f = .unknownOpcode s.pc w) ∨
    (∃ w i, fetch s = .ok w ∧ dec w = .ok i ∧ ex i s = .fault f) := by
  unfold stepCycle raise at h
  split at h
  · cases h
    exact .inl ‹_›
  · rename_i w hw
    split at h
    · rename_i e he
      cases h
      exact .inr (.inl ⟨w, e, hw, he, rfl⟩)
    · rename_i i hi
      refine .inr (.inr ⟨w, i, hw, hi, ?_⟩)
      cases hx : ex i s with
      | next u => rw [hx] at h; cases h
      | fault g => rw [hx] at h; cases h; rfl
      | refused r => rw [hx] at h; cases h

end Sys2Proof.Machine
end

