-- ==== Sys2Proof/Laws/Exec.lean ====
section
/-!
SUPPORT. What an instruction with more than one outcome was, given that it answered a next state or a
fault: inversion lemmas, so that no proof unfolds a meaning. The others answer a next state by rfl.
-/

namespace Sys2Proof.Machine

theorem State.skipIf_eq (s : State) (c : Bool) : s.skipIf c = { s with pc := (s.skipIf c).pc } := by
  cases c <;> rfl

theorem execRet_next {mid : Byte} {s t : State} (h : execRet mid s = .next t) :
    ∃ u w, s.pop = some (u, w) ∧ t = u.setPc (w + 2#16) := by
  unfold execRet raise at h
  split at h
  · cases h
  · cases h
    exact ⟨_, _, ‹_›, rfl⟩

theorem execRet_fault {mid : Byte} {s : State} {f : Fault} (h : execRet mid s = .fault f) :
    s.sp.val = 0 ∧ f = .stackUnderflow s.pc (encode (.ret mid)) := by
  unfold execRet raise at h
  split at h
  · cases h
    exact ⟨State.pop_none.1 ‹_›, rfl⟩
  · cases h

theorem execCall_next {nnn : Addr12} {s t : State} (h : execCall nnn s = .next t) :
    ∃ u, s.pushPc = some u ∧ t = u.setPc (zextAddr nnn) := by
  unfold execCall raise at h
  split at h
  · cases h
  · cases h
    exact ⟨_, ‹_›, rfl⟩

theorem execCall_fault {nnn : Addr12} {s : State} {f : Fault} (h : execCall nnn s = .fault f) :
    s.sp.val = 16 ∧ f = .stackOverflow s.pc (encode (.call nnn)) := by
  unfold execCall raise at h
  split at h
  · cases h
    exact ⟨State.pushPc_none.1 ‹_›, rfl⟩
  · cases h

theorem withKey_next {s t : State} {w : Word} {x : RegIdx} {test : Bool → Result}
    (h : withKey s w x test = .next t) :
    ∃ k, keyIndex (s.readV x) = some k ∧ test (s.key k) = .next t := by
  unfold withKey raise at h
  split at h
  · cases h
  · exact ⟨_, ‹_›, h⟩

theorem withKey_fault {s : State} {w : Word} {x : RegIdx} {g : Bool → State} {f : Fault}
    (h : withKey s w x (fun pressed => .next (g pressed)) = .fault f) :
    15 < (s.readV x).toNat ∧ f = .invalidKeyIndex s.pc w (s.readV x) := by
  unfold withKey raise at h
  by_cases hk : (s.readV x).toNat ≤ 15
  · simp [keyIndex_some hk] at h
  · rw [keyIndex_none (by omega)] at h
    cases h
    exact ⟨by omega, rfl⟩

theorem execSkp_next {x : RegIdx} {s t : State} (h : execSkp x s = .next t) :
    ∃ pressed, t = s.skipIf pressed := by
  obtain ⟨k, -, h⟩ := withKey_next h
  cases h
  exact ⟨_, rfl⟩

theorem execSknp_next {x : RegIdx} {s t : State} (h : execSknp x s = .next t) :
    ∃ pressed, t = s.skipIf (!pressed) := by
  obtain ⟨k, -, h⟩ := withKey_next h
  cases h
  exact ⟨_, rfl⟩

theorem execSkp_fault {x : RegIdx} {s : State} {f : Fault} (h : execSkp x s = .fault f) :
    15 < (s.readV x).toNat ∧ f = .invalidKeyIndex s.pc (encode (.skp x)) (s.readV x) :=
  withKey_fault h

theorem execSknp_fault {x : RegIdx} {s : State} {f : Fault} (h : execSknp x s = .fault f) :
    15 < (s.readV x).toNat ∧ f = .invalidKeyIndex s.pc (encode (.sknp x)) (s.readV x) :=
  withKey_fault (g := fun pressed => s.skipIf (!pressed)) h

theorem execLdVxKWith_next {select : Nibble → List Nibble → Nibble} {x : RegIdx} {s t : State}
    (h : execLdVxKWith select x s = .next t) :
    (s.pressedKeys = [] ∧ t = s) ∨
    ∃ k ks, s.pressedKeys = k :: ks ∧ t = (s.writeV x ((select k ks).setWidth 8)).advance := by
  unfold execLdVxKWith at h
  split at h
  · cases h
    exact .inl ⟨‹_›, rfl⟩
  · cases h
    exact .inr ⟨_, _, ‹_›, rfl⟩

/-- The canvas DRW leaves. -/
abbrev drawnCanvas (edge : Config.SpriteEdge) (x y : RegIdx) (n : Nibble) (s : State) : Canvas :=
  blit edge (startRow (s.readV y)) (startColumn (s.readV x))
    (Memory.readBytes s.mem s.i.toNat n.toNat) (s.display, false)

theorem execDrwWith_next {edge : Config.SpriteEdge} {x y : RegIdx} {n : Nibble} {s t : State}
    (h : execDrwWith edge x y n s = .next t) :
    (n.toNat = 0 ∨ s.i.toNat + n.toNat ≤ memSize) ∧
    t = (((s.setDisplay (drawnCanvas edge x y n s).1).writeV vf
      (flagByte (drawnCanvas edge x y n s).2)).setRedraw true).advance := by
  obtain ⟨h1, h2⟩ := withAccess_next h
  cases h2
  exact ⟨h1, rfl⟩

theorem execLdBVx_next {x : RegIdx} {s t : State} (h : execLdBVx x s = .next t) :
    s.i.toNat + 3 ≤ memSize ∧
    t = (s.setMem (Memory.writeBytes s.mem s.i.toNat (bcdDigits (s.readV x)))).advance := by
  obtain ⟨h1, h2⟩ := withAccess_next h
  cases h2
  exact ⟨by omega, rfl⟩

theorem execStoreRegs_next {x : RegIdx} {s t : State} (h : execStoreRegs x s = .next t) :
    s.i.toNat + (x.toNat + 1) ≤ memSize ∧
    t = (s.setMem (Memory.writeBytes s.mem s.i.toNat (s.lowRegs x))).advance := by
  obtain ⟨h1, h2⟩ := withAccess_next h
  cases h2
  exact ⟨by omega, rfl⟩

theorem execLoadRegs_next {x : RegIdx} {s t : State} (h : execLoadRegs x s = .next t) :
    s.i.toNat + (x.toNat + 1) ≤ memSize ∧
    t = (s.writeRegs 0 (Memory.readBytes s.mem s.i.toNat (x.toNat + 1))).advance := by
  obtain ⟨h1, h2⟩ := withAccess_next h
  cases h2
  exact ⟨by omega, rfl⟩

/-! ## The rasterizer's one pixel -/

/-- What plotting does to every cell (46_display.md R401). -/
theorem pixel_plot (edge : Config.SpriteEdge) (r c : Nat) (cv : Canvas) (r' : Fin 32) (c' : Fin 64) :
    pixel (plot edge r c cv).1 r' c' =
      if placePixel edge r c = some (r', c') then pixel cv.1 r' c' ^^^ 0x01#8
      else pixel cv.1 r' c' := by
  unfold plot
  split
  · rename_i h
    simp [h]
  · rename_i py px h
    rw [pixel_setPixel]
    by_cases hp : r' = py ∧ c' = px
    · obtain ⟨rfl, rfl⟩ := hp
      simp [h]
    · have : ¬ (py = r' ∧ px = c') := fun ⟨h1, h2⟩ => hp ⟨h1.symm, h2.symm⟩
      simp [h, hp, this]

/-- When plotting reports a collision. -/
theorem plot_collision (edge : Config.SpriteEdge) (r c : Nat) (cv : Canvas) :
    (plot edge r c cv).2 = true ↔
      cv.2 = true ∨ ∃ p, placePixel edge r c = some p ∧ pixel cv.1 p.1 p.2 = 0x01#8 := by
  unfold plot
  split
  · rename_i h
    simp [h]
  · rename_i py px h
    simp [h]

/-! ## The parameters -/

/-- Only DRW and LD Vx,K depend on a parameter. -/
theorem execWith_eq_exec {p : Config.Params} {i : Instr} (s : State)
    (hd : ∀ x y n, i ≠ .drw x y n) (hk : ∀ x, i ≠ .ldVxK x) : execWith p i s = exec i s := by
  cases i
  case drw x y n => exact absurd rfl (hd x y n)
  case ldVxK x => exact absurd rfl (hk x)
  all_goals rfl

theorem execWith_params (i : Instr) (s : State) : execWith Config.params i s = exec i s := by
  cases i <;> rfl

/-- The machine's step is the parametric step at the default parameters (00_scope.md R8). -/
theorem stepWith_params (s : State) : stepWith Config.params s = step s := by
  have h : execWith Config.params = exec := funext fun i => funext fun s => execWith_params i s
  unfold stepWith step
  rw [h]
  rfl

/-! ## The word the host places -/

/-- The instruction placed at PC is the one the next step fetches (log 10). -/
theorem fetch_withFetchWord (s : State) (w : Word) (h : s.pc.toNat + 1 < memSize) :
    fetch (s.withFetchWord 16 w.toNat) = .ok w := by
  have hn : lowestBadAddress s.pc.toNat 2 = none := lowestBadAddress_eq_none.2 (by omega)
  have hw : BitVec.ofNat 16 (w.toNat % 2 ^ 16) = w := by
    rw [Nat.mod_eq_of_lt w.isLt, BitVec.ofNat_toNat, BitVec.setWidth_eq]
  simp only [State.withFetchWord, placeWord, hn, fetch, State.setMem_pc, State.setMem_mem,
    tableWordBytes, hw]
  congr 1
  rw [Memory.read_writeBytes, Memory.read_writeBytes]
  simpa using Sys2Proof.wordOfBytes_split w

end Sys2Proof.Machine
end

