-- ==== Sys2Proof/Laws/Host.lean ====
section
/-!
SUPPORT. One lemma per host operation saying what it does (60_exceptions.md R511).
-/

namespace Sys2Proof.Machine

/-- The host's keypad write sets every key's level (R516). -/
theorem State.key_writeKeys (s : State) (keys : BitVec 16) (k : Nibble) :
    (s.writeKeys keys).key k = keys.getLsbD k.toNat := by
  have hk : k.toNat < 16 := k.isLt
  have : (s.writeKeys keys).key k = (s.writeKeys keys).keypad[k.toNat] := by
    simp [State.key, Vector.get_eq_getElem]
  rw [this]
  generalize k.toNat = n at hk
  interval_cases n <;> rfl

/-- A byte loaded inside memory is written, and nothing else (20_memory.md R83). -/
theorem loadByte_inside {s : State} {addr : Word} (data : Byte) (h : addr.toNat < memSize) :
    loadByte s addr data = (s.setMem (Memory.write s.mem addr.toNat data), false) := by
  have hn : lowestBadAddress addr.toNat 1 = none := lowestBadAddress_eq_none.2 (by omega)
  simp [loadByte, hn]

/-- A byte loaded past memory is refused and changes nothing (20_memory.md R83). -/
theorem loadByte_outside {s : State} {addr : Word} (data : Byte) (h : memSize ≤ addr.toNat) :
    loadByte s addr data = (s, true) := by
  have hb : lowestBadAddress addr.toNat 1 = some (max addr.toNat memSize) :=
    lowestBadAddress_eq_some.2 ⟨by omega, by omega, rfl⟩
  simp [loadByte, hb]

/-- A program that fits is found from 0x200 on (70_reset_and_hazards.md R604). -/
theorem loadProgram_next {s t : State} {bytes : List Byte} (h : loadProgram s bytes = some t) :
    programBase + bytes.length ≤ memSize ∧
      t = s.setMem (Memory.writeBytes s.mem programBase bytes) := by
  have hm : programBase ≤ memSize := by decide
  unfold loadProgram at h
  split at h
  · cases h
  · rename_i hn
    cases h
    rw [lowestBadAddress_eq_none] at hn
    exact ⟨by omega, rfl⟩

/-- What launching answers (70_reset_and_hazards.md R604, R605). -/
theorem System.launch_some {p : Config.Params} {before : State} {seed : Nat} {program : List Byte}
    {sys : System} (h : System.launch p before seed program = some sys) :
    programBase + program.length ≤ memSize ∧
      sys = { engine := (before.hardResetWith p seed).setMem
                (Memory.writeBytes (State.resetWith p).mem programBase program),
              loadOpen := true } := by
  unfold System.launch at h
  obtain ⟨t, ht, rfl⟩ := Option.map_eq_some_iff.1 h
  obtain ⟨h1, rfl⟩ := loadProgram_next ht
  exact ⟨h1, rfl⟩

/-- A failed step leaves the engine as it was (60_exceptions.md R501). -/
theorem stepResponse_fault (s : State) (f : Fault) : (stepResponse s (.fault f)).1 = s := rfl

end Sys2Proof.Machine
end

