-- ==== Sys2Proof/Laws/PerInstr.lean ====
section
/-!
SUPPORT. Statements made for every instruction, one lemma per constructor.

`EncodingRow`: the word of the instruction matches its own row of the opcode map (30_encoding.md R105).
-/

namespace Sys2Proof.Laws.EncodingRow

/-- The instruction's word, masked as its row of R105 says, is that row's match. -/
def Statement (i : Instr) : Prop :=
  ∃ row, opcodeRows[i.row]? = some row ∧ encode i &&& row.1 = row.2

theorem cls (mid : Byte) : Statement (.cls mid) := by
  refine ⟨(0xF00F, 0x0000), rfl, ?_⟩
  show packOP0 mid 0x0#4 &&& 0xF00F#16 = _
  rw [packOP0_eq, packXYN_and_mask]; decide

theorem ret (mid : Byte) : Statement (.ret mid) := by
  refine ⟨(0xF00F, 0x000E), rfl, ?_⟩
  show packOP0 mid 0xE#4 &&& 0xF00F#16 = _
  rw [packOP0_eq, packXYN_and_mask]; decide

theorem jp (nnn : Addr12) : Statement (.jp nnn) :=
  ⟨(0xF000, 0x1000), rfl, packNNN_and_mask 0x1#4 nnn⟩

theorem call (nnn : Addr12) : Statement (.call nnn) :=
  ⟨(0xF000, 0x2000), rfl, packNNN_and_mask 0x2#4 nnn⟩

theorem seImm (x : RegIdx) (kk : Byte) : Statement (.seImm x kk) :=
  ⟨(0xF000, 0x3000), rfl, (congrArg (· &&& 0xF000#16) rfl).trans (packNNN_and_mask 0x3#4 (x ++ kk))⟩

theorem sneImm (x : RegIdx) (kk : Byte) : Statement (.sneImm x kk) :=
  ⟨(0xF000, 0x4000), rfl, (congrArg (· &&& 0xF000#16) rfl).trans (packNNN_and_mask 0x4#4 (x ++ kk))⟩

theorem seReg (x y : RegIdx) : Statement (.seReg x y) :=
  ⟨(0xF00F, 0x5000), rfl, packXYN_and_mask 0x5#4 x y 0x0#4⟩

theorem ldImm (x : RegIdx) (kk : Byte) : Statement (.ldImm x kk) :=
  ⟨(0xF000, 0x6000), rfl, (congrArg (· &&& 0xF000#16) rfl).trans (packNNN_and_mask 0x6#4 (x ++ kk))⟩

theorem addImm (x : RegIdx) (kk : Byte) : Statement (.addImm x kk) :=
  ⟨(0xF000, 0x7000), rfl, (congrArg (· &&& 0xF000#16) rfl).trans (packNNN_and_mask 0x7#4 (x ++ kk))⟩

theorem ldReg (x y : RegIdx) : Statement (.ldReg x y) :=
  ⟨(0xF00F, 0x8000), rfl, packXYN_and_mask 0x8#4 x y 0x0#4⟩

theorem orReg (x y : RegIdx) : Statement (.orReg x y) :=
  ⟨(0xF00F, 0x8001), rfl, packXYN_and_mask 0x8#4 x y 0x1#4⟩

theorem andReg (x y : RegIdx) : Statement (.andReg x y) :=
  ⟨(0xF00F, 0x8002), rfl, packXYN_and_mask 0x8#4 x y 0x2#4⟩

theorem xorReg (x y : RegIdx) : Statement (.xorReg x y) :=
  ⟨(0xF00F, 0x8003), rfl, packXYN_and_mask 0x8#4 x y 0x3#4⟩

theorem addReg (x y : RegIdx) : Statement (.addReg x y) :=
  ⟨(0xF00F, 0x8004), rfl, packXYN_and_mask 0x8#4 x y 0x4#4⟩

theorem subReg (x y : RegIdx) : Statement (.subReg x y) :=
  ⟨(0xF00F, 0x8005), rfl, packXYN_and_mask 0x8#4 x y 0x5#4⟩

theorem shr (x y : RegIdx) : Statement (.shr x y) :=
  ⟨(0xF00F, 0x8006), rfl, packXYN_and_mask 0x8#4 x y 0x6#4⟩

theorem subnReg (x y : RegIdx) : Statement (.subnReg x y) :=
  ⟨(0xF00F, 0x8007), rfl, packXYN_and_mask 0x8#4 x y 0x7#4⟩

theorem shl (x y : RegIdx) : Statement (.shl x y) :=
  ⟨(0xF00F, 0x800E), rfl, packXYN_and_mask 0x8#4 x y 0xE#4⟩

theorem sneReg (x y : RegIdx) : Statement (.sneReg x y) :=
  ⟨(0xF00F, 0x9000), rfl, packXYN_and_mask 0x9#4 x y 0x0#4⟩

theorem ldI (nnn : Addr12) : Statement (.ldI nnn) :=
  ⟨(0xF000, 0xA000), rfl, packNNN_and_mask 0xA#4 nnn⟩

theorem jpV0 (nnn : Addr12) : Statement (.jpV0 nnn) :=
  ⟨(0xF000, 0xB000), rfl, packNNN_and_mask 0xB#4 nnn⟩

theorem rnd (x : RegIdx) (kk : Byte) : Statement (.rnd x kk) :=
  ⟨(0xF000, 0xC000), rfl, (congrArg (· &&& 0xF000#16) rfl).trans (packNNN_and_mask 0xC#4 (x ++ kk))⟩

theorem drw (x y : RegIdx) (n : Nibble) : Statement (.drw x y n) :=
  ⟨(0xF000, 0xD000), rfl, packNNN_and_mask 0xD#4 (x ++ (y ++ n : BitVec 8))⟩

theorem skp (x : RegIdx) : Statement (.skp x) :=
  ⟨(0xF0FF, 0xE09E), rfl, packXKK_and_mask 0xE#4 x 0x9E#8⟩

theorem sknp (x : RegIdx) : Statement (.sknp x) :=
  ⟨(0xF0FF, 0xE0A1), rfl, packXKK_and_mask 0xE#4 x 0xA1#8⟩

theorem ldVxDT (x : RegIdx) : Statement (.ldVxDT x) :=
  ⟨(0xF0FF, 0xF007), rfl, packXKK_and_mask 0xF#4 x 0x07#8⟩

theorem ldVxK (x : RegIdx) : Statement (.ldVxK x) :=
  ⟨(0xF0FF, 0xF00A), rfl, packXKK_and_mask 0xF#4 x 0x0A#8⟩

theorem ldDTVx (x : RegIdx) : Statement (.ldDTVx x) :=
  ⟨(0xF0FF, 0xF015), rfl, packXKK_and_mask 0xF#4 x 0x15#8⟩

theorem ldSTVx (x : RegIdx) : Statement (.ldSTVx x) :=
  ⟨(0xF0FF, 0xF018), rfl, packXKK_and_mask 0xF#4 x 0x18#8⟩

theorem addIVx (x : RegIdx) : Statement (.addIVx x) :=
  ⟨(0xF0FF, 0xF01E), rfl, packXKK_and_mask 0xF#4 x 0x1E#8⟩

theorem ldFVx (x : RegIdx) : Statement (.ldFVx x) :=
  ⟨(0xF0FF, 0xF029), rfl, packXKK_and_mask 0xF#4 x 0x29#8⟩

theorem ldBVx (x : RegIdx) : Statement (.ldBVx x) :=
  ⟨(0xF0FF, 0xF033), rfl, packXKK_and_mask 0xF#4 x 0x33#8⟩

theorem storeRegs (x : RegIdx) : Statement (.storeRegs x) :=
  ⟨(0xF0FF, 0xF055), rfl, packXKK_and_mask 0xF#4 x 0x55#8⟩

theorem loadRegs (x : RegIdx) : Statement (.loadRegs x) :=
  ⟨(0xF0FF, 0xF065), rfl, packXKK_and_mask 0xF#4 x 0x65#8⟩

end Sys2Proof.Laws.EncodingRow
end

