-- ==== Sys2Proof/Tests/Slice0.lean ====
section
/-!
SUPPORT. Tests. Each expected value is the spec's: a vector of 95_test_vectors.md (named by its
number there), or a word written out bit by bit from 30_encoding.md R105. After them, one witness
for every obligation with hypotheses: a concrete state and operands that meet all of them.
-/

namespace Sys2Proof.Tests

open Sys2Proof Sys2Proof.Machine Sys2Proof.Machine.Safety

/-! ## Helpers -/

/-- The state right after reset. -/
abbrev s0 : State := State.reset

/-- What `f` sees in the next state, if there is one. -/
def look {α : Type} (f : State → α) : Result → Option α
  | .next t => some (f t)
  | .fault _ => none
  | .refused _ => none

/-- The failure, if there is one. -/
def failure : Result → Option Fault
  | .next _ => none
  | .fault f => some f
  | .refused _ => none

/-- One step with the word `w` placed at PC. -/
def run (w : Nat) (s : State) : Result := step (s.withFetchWord 16 w)

/-- A stack pointer with one slot's content. -/
def withStack (s : State) (sp : Fin 17) (slot : Nat) (w : Word) : State :=
  { s with sp := sp, stack := s.stack.setIfInBounds slot w }

theorem next_of_look {r : Result} (h : (look (fun _ => ()) r).isSome = true) : ∃ t, r = .next t := by
  cases r with
  | next t => exact ⟨t, rfl⟩
  | fault f => simp [look] at h
  | refused r => simp [look] at h

theorem look_of_next {α : Type} {f : State → α} {r : Result} {b : α} (h : look f r = some b) :
    ∃ t, r = .next t ∧ f t = b := by
  cases r with
  | next t => exact ⟨t, rfl, by simpa [look] using h⟩
  | fault f => simp [look] at h
  | refused r => simp [look] at h

theorem fault_of_failure {r : Result} {f : Fault} (h : failure r = some f) : r = .fault f := by
  cases r with
  | next t => simp [failure] at h
  | fault g => simpa [failure] using h
  | refused r => simp [failure] at h

/-! ## Well-formedness -/

theorem test_wellFormed_cls_strict : Instr.wellFormedWith true (.cls 0x00#8) = false := by decide
theorem test_wellFormed_ret_strict : Instr.wellFormedWith true (.ret 0xAB#8) = false := by decide
theorem test_wellFormed_canonical :
    Instr.wellFormedWith true (.cls 0x0E#8) = true ∧ Instr.wellFormedWith true (.ret 0x0E#8) = true := by
  decide

/-! ## Decoding and encoding words written out from R105 -/

theorem test_decode_control :
    decode 0b0000_0000_1110_0000#16 = .ok (.cls 0x0E#8) ∧
    decode 0b0000_0000_1110_1110#16 = .ok (.ret 0x0E#8) ∧
    decode 0b0001_0010_0011_0100#16 = .ok (.jp 0x234#12) ∧
    decode 0b0010_1010_1011_1100#16 = .ok (.call 0xABC#12) ∧
    decode 0b0011_0011_0100_0010#16 = .ok (.seImm 0x3#4 0x42#8) ∧
    decode 0b0100_1111_0000_0001#16 = .ok (.sneImm 0xF#4 0x01#8) ∧
    decode 0b0101_0001_0010_0000#16 = .ok (.seReg 0x1#4 0x2#4) ∧
    decode 0b1001_0001_0010_0000#16 = .ok (.sneReg 0x1#4 0x2#4) ∧
    decode 0b1011_0011_0000_0001#16 = .ok (.jpV0 0x301#12) := by decide

theorem test_decode_arith :
    decode 0b0111_0000_0000_0001#16 = .ok (.addImm 0x0#4 0x01#8) ∧
    decode 0b1000_0001_0010_0001#16 = .ok (.orReg 0x1#4 0x2#4) ∧
    decode 0b1000_0001_0010_0010#16 = .ok (.andReg 0x1#4 0x2#4) ∧
    decode 0b1000_0001_0010_0011#16 = .ok (.xorReg 0x1#4 0x2#4) ∧
    decode 0b1000_0001_0010_0100#16 = .ok (.addReg 0x1#4 0x2#4) ∧
    decode 0b1000_0001_0010_0101#16 = .ok (.subReg 0x1#4 0x2#4) ∧
    decode 0b1000_0001_1010_0110#16 = .ok (.shr 0x1#4 0xA#4) ∧
    decode 0b1000_0001_0010_0111#16 = .ok (.subnReg 0x1#4 0x2#4) ∧
    decode 0b1000_0001_1010_1110#16 = .ok (.shl 0x1#4 0xA#4) ∧
    decode 0b1100_0101_1111_1111#16 = .ok (.rnd 0x5#4 0xFF#8) := by decide

theorem test_decode_transfer :
    decode 0b0110_1010_0010_1111#16 = .ok (.ldImm 0xA#4 0x2F#8) ∧
    decode 0b1000_0001_0010_0000#16 = .ok (.ldReg 0x1#4 0x2#4) ∧
    decode 0b1010_0011_0000_0000#16 = .ok (.ldI 0x300#12) ∧
    decode 0b1111_0101_0001_1110#16 = .ok (.addIVx 0x5#4) ∧
    decode 0b1111_0000_0010_1001#16 = .ok (.ldFVx 0x0#4) ∧
    decode 0b1111_0011_0011_0011#16 = .ok (.ldBVx 0x3#4) ∧
    decode 0b1111_0001_0101_0101#16 = .ok (.storeRegs 0x1#4) ∧
    decode 0b1111_0010_0110_0101#16 = .ok (.loadRegs 0x2#4) := by decide

theorem test_decode_devices :
    decode 0b1111_0011_0000_0111#16 = .ok (.ldVxDT 0x3#4) ∧
    decode 0b1111_0000_0001_0101#16 = .ok (.ldDTVx 0x0#4) ∧
    decode 0b1111_0100_0001_1000#16 = .ok (.ldSTVx 0x4#4) ∧
    decode 0b1110_0010_1001_1110#16 = .ok (.skp 0x2#4) ∧
    decode 0b1110_0010_1010_0001#16 = .ok (.sknp 0x2#4) ∧
    decode 0b1111_0101_0000_1010#16 = .ok (.ldVxK 0x5#4) ∧
    decode 0b1101_0000_0001_0101#16 = .ok (.drw 0x0#4 0x1#4 0x5#4) := by decide

theorem test_encode_words :
    encode (.cls 0x0E#8) = 0x00E0#16 ∧ encode (.ret 0xAB#8) = 0x0ABE#16 ∧
    encode (.call 0xABC#12) = 0x2ABC#16 ∧ encode (.shr 0x1#4 0xA#4) = 0x81A6#16 ∧
    encode (.drw 0xD#4 0x3#4 0x7#4) = 0xDD37#16 ∧ encode (.sknp 0x9#4) = 0xE9A1#16 ∧
    encode (.loadRegs 0x2#4) = 0xF265#16 := by decide

/-- V1–V8 and C22: each class of undefined word is rejected under its own name. -/
theorem test_decode_undefined :
    decode 0x0001#16 = .error (.family0 0x0001#16) ∧ decode 0x5121#16 = .error (.family5 0x5121#16) ∧
    decode 0x8008#16 = .error (.family8 0x8008#16) ∧ decode 0x800F#16 = .error (.family8 0x800F#16) ∧
    decode 0x9AB3#16 = .error (.family9 0x9AB3#16) ∧ decode 0x912F#16 = .error (.family9 0x912F#16) ∧
    decode 0xE000#16 = .error (.familyE 0xE000#16) ∧ decode 0xF100#16 = .error (.familyF 0xF100#16) ∧
    decode 0xFFFF#16 = .error (.familyF 0xFFFF#16) := by decide

/-- V10–V13: the family-0 words under the two settings of `ZERO_FAMILY_STRICT`. -/
theorem test_decode_zeroFamily :
    decode 0x0000#16 = .ok (.cls 0x00#8) ∧ decode 0x0ABE#16 = .ok (.ret 0xAB#8) ∧
    decodeWith true 0x0000#16 = .error (.family0 0x0000#16) ∧
    decodeWith true 0x0ABE#16 = .error (.family0 0x0ABE#16) := by decide

/-- Bytes are taken two at a time, the high byte first; one byte is no word. -/
theorem test_decode_bytes :
    decodeBytes [0x6A#8, 0x2F#8, 0x11#8] = .ok (.ldImm 0xA#4 0x2F#8, [0x11#8]) ∧
    decodeBytes [0x6A#8] = .error .truncated ∧
    decodeTableWord 16 0xD015 = some (.drw 0x0#4 0x1#4 0x5#4) ∧ decodeTableWord 16 0x5121 = none := by
  decide

/-! ## The step cycle -/

/-- V14: 0xFFE is the highest PC that fetches. -/
theorem test_fetch_last : look State.pc (run 0x1234 (s0.setPc 0xFFE#16)) = some 0x234#16 := by decide

/-- V15, V16: past it the fetch fails with no word. -/
theorem test_fetch_past :
    failure (step (s0.setPc 0xFFF#16)) = some (.addressOutOfRange 0xFFF#16 none 0x1000) ∧
    failure (step (s0.setPc 0x1000#16)) = some (.addressOutOfRange 0x1000#16 none 0x1000) := by decide

/-- V17: an odd PC fetches. -/
theorem test_fetch_odd : look State.pc (run 0x1234 (s0.setPc 0x201#16)) = some 0x234#16 := by decide

/-- V9: an undefined word fails. -/
theorem test_undefined_fails :
    failure (run 0xFFFF s0) = some (.unknownOpcode 0x200#16 0xFFFF#16) := by decide

/-- V12: with `ZERO_FAMILY_STRICT` the word 0x0000 fails. -/
theorem test_strict_fails :
    failure (stepWith { Config.params with zeroFamilyStrict := true } s0) =
      some (.unknownOpcode 0x200#16 0x0000#16) := by decide

/-- T8, T9: the tick and the beep edge. -/
theorem test_tick :
    look (fun t => (t.st, t.beep)) (run 0x6000 (s0.setST 1#8)) = some (0#8, true) ∧
    look (fun t => (t.st, t.beep)) (run 0x6000 (s0.setST 2#8)) = some (1#8, false) := by decide

/-! ## Control flow -/

/-- C1, C4. -/
theorem test_ret :
    look (fun t => (t.pc, t.sp, t.stack[0])) (run 0x00EE (withStack (s0.setPc 0x212#16) 1 0 0x204#16)) =
      some (0x206#16, 0, 0x204#16) ∧
    look State.pc (run 0x00EE (withStack s0 1 0 0xFFE#16)) = some 0x1000#16 := by decide

/-- C2. -/
theorem test_ret_underflow : failure (run 0x00EE s0) = some (.stackUnderflow 0x200#16 0x00EE#16) := by
  decide

/-- C5. -/
theorem test_jp : look State.pc (run 0x1234 s0) = some 0x234#16 := by decide

/-- C8, C9. -/
theorem test_call :
    look (fun t => (t.pc, t.sp, t.stack[0])) (run 0x2210 (s0.setPc 0x204#16)) =
      some (0x210#16, 1, 0x204#16) ∧
    look (fun t => (t.pc, t.sp, t.stack[15])) (run 0x2400 (withStack s0 15 0 0#16)) =
      some (0x400#16, 16, 0x200#16) := by decide

/-- C10. -/
theorem test_call_overflow :
    failure (run 0x2400 (withStack s0 16 0 0#16)) = some (.stackOverflow 0x200#16 0x2400#16) := by decide

/-- C11, C12, C14, C15. -/
theorem test_skip_imm :
    look State.pc (run 0x3342 (s0.writeV 3 0x42#8)) = some 0x204#16 ∧
    look State.pc (run 0x3342 (s0.writeV 3 0x43#8)) = some 0x202#16 ∧
    look State.pc (run 0x4342 (s0.writeV 3 0x42#8)) = some 0x202#16 ∧
    look State.pc (run 0x4342 s0) = some 0x204#16 := by decide

/-- C16, C17, C19, C20. -/
theorem test_skip_reg :
    look State.pc (run 0x5120 ((s0.writeV 1 7#8).writeV 2 7#8)) = some 0x204#16 ∧
    look State.pc (run 0x5120 ((s0.writeV 1 7#8).writeV 2 8#8)) = some 0x202#16 ∧
    look State.pc (run 0x9120 ((s0.writeV 1 7#8).writeV 2 8#8)) = some 0x204#16 ∧
    look State.pc (run 0x9120 ((s0.writeV 1 7#8).writeV 2 7#8)) = some 0x202#16 := by decide

/-- C24: the sum is not masked. -/
theorem test_jpV0 : look State.pc (run 0xBFFF (s0.writeV 0 0xFF#8)) = some 0x10FE#16 := by decide

/-! ## Arithmetic and logic -/

/-- V[x] and VF after the word `w`. -/
def xAndFlag (w : Nat) (x : RegIdx) (s : State) : Option (Byte × Byte) :=
  look (fun t => (t.readV x, t.readV vf)) (run w s)

/-- A1, A3. -/
theorem test_addImm :
    xAndFlag 0x7001 0 (s0.writeV 0 0xFF#8) = some (0x00#8, 0x00#8) ∧
    xAndFlag 0x7F01 0xF (s0.writeV vf 0xFF#8) = some (0x00#8, 0x00#8) := by decide

/-- A4, A5. -/
theorem test_or :
    xAndFlag 0x8121 1 ((s0.writeV 1 0x0F#8).writeV 2 0xF0#8) = some (0xFF#8, 0x00#8) ∧
    xAndFlag 0x8121 1 (s0.writeV vf 1#8) = some (0x00#8, 0x01#8) := by decide

/-- A6, A7. -/
theorem test_and_xor :
    xAndFlag 0x8122 1 ((s0.writeV 1 0x3C#8).writeV 2 0x0F#8) = some (0x0C#8, 0x00#8) ∧
    xAndFlag 0x8123 1 ((s0.writeV 1 0xFF#8).writeV 2 0x0F#8) = some (0xF0#8, 0x00#8) := by decide

/-- A9, A10. -/
theorem test_add_carry :
    xAndFlag 0x8014 0 ((s0.writeV 0 0xFF#8).writeV 1 0x01#8) = some (0x00#8, 0x01#8) ∧
    xAndFlag 0x8014 0 ((s0.writeV 0 0x80#8).writeV 1 0x7F#8) = some (0xFF#8, 0x00#8) := by decide

/-- A12, A13: x = F and y = F. -/
theorem test_add_vf :
    xAndFlag 0x8F14 0xF ((s0.writeV vf 0x10#8).writeV 1 0xF0#8) = some (0x00#8, 0x00#8) ∧
    xAndFlag 0x81F4 1 ((s0.writeV vf 0xFF#8).writeV 1 0x01#8) = some (0x00#8, 0x01#8) := by decide

/-- A14, A15. -/
theorem test_sub :
    xAndFlag 0x8015 0 ((s0.writeV 0 0x01#8).writeV 1 0x02#8) = some (0xFF#8, 0x00#8) ∧
    xAndFlag 0x8015 0 ((s0.writeV 0 0x05#8).writeV 1 0x05#8) = some (0x00#8, 0x01#8) := by decide

/-- A17, A18. -/
theorem test_sub_vf :
    xAndFlag 0x8FF5 0xF (s0.writeV vf 0x07#8) = some (0x00#8, 0x00#8) ∧
    xAndFlag 0x8F15 0xF ((s0.writeV vf 0x05#8).writeV 1 0x03#8) = some (0x02#8, 0x02#8) := by decide

/-- A19, A21, A22. -/
theorem test_shr :
    xAndFlag 0x8106 1 (s0.writeV 1 0x03#8) = some (0x01#8, 0x01#8) ∧
    xAndFlag 0x81A6 1 ((s0.writeV 1 0x80#8).writeV 0xA 0xFF#8) = some (0x40#8, 0x00#8) ∧
    xAndFlag 0x8F06 0xF (s0.writeV vf 0x03#8) = some (0x01#8, 0x01#8) := by decide

/-- A23, A25. -/
theorem test_subn :
    xAndFlag 0x8127 1 ((s0.writeV 1 0x05#8).writeV 2 0x03#8) = some (0xFE#8, 0x00#8) ∧
    xAndFlag 0x8127 1 ((s0.writeV 1 0x04#8).writeV 2 0x04#8) = some (0x00#8, 0x01#8) := by decide

/-- A26, A27, A28. -/
theorem test_shl :
    xAndFlag 0x810E 1 (s0.writeV 1 0x81#8) = some (0x02#8, 0x01#8) ∧
    xAndFlag 0x810E 1 (s0.writeV 1 0x40#8) = some (0x80#8, 0x00#8) ∧
    xAndFlag 0x8F0E 0xF (s0.writeV vf 0x80#8) = some (0x00#8, 0x00#8) := by decide

/-- A29–A31: exactly one byte is drawn. -/
theorem test_rnd_draws :
    look (fun t => (t.rng.draws, t.pc)) (run 0xC00F s0) = some (1, 0x202#16) := by decide

/-- A30: a zero mask gives 0 whatever the draw. -/
theorem test_rnd_zero (s : State) :
    look (fun t => t.readV 0) (exec (.rnd 0#4 0x00#8) s) = some 0x00#8 := by
  simp [look, exec, execRnd]

/-! ## Memory and register transfer -/

/-- The bytes at three addresses from `a` on after the word `w`, and I. -/
def bytesAndI (w a : Nat) (s : State) : Option (List Byte × Word) :=
  look (fun t => (Memory.readBytes t.mem a 3, t.i)) (run w s)

/-- M1, M2. -/
theorem test_ld :
    look (fun t => t.readV 0xA) (run 0x6A2F s0) = some 0x2F#8 ∧
    look (fun t => t.readV 1) (run 0x8120 (s0.writeV 2 0x99#8)) = some 0x99#8 := by decide

/-- M4, M6, M7. -/
theorem test_index :
    look State.i (run 0xAFFF (s0.setI 0xFFFF#16)) = some 0x0FFF#16 ∧
    look State.i (run 0xF01E ((s0.setI 0xFFFF#16).writeV 0 1#8)) = some 0x0000#16 ∧
    look State.i (run 0xF01E ((s0.setI 0x0FFF#16).writeV 0 1#8)) = some 0x1000#16 := by decide

/-- M9, M12. -/
theorem test_ldF :
    look State.i (run 0xF029 (s0.writeV 0 0x0A#8)) = some 0x0032#16 ∧
    look State.i (run 0xF029 (s0.writeV 0 0xFF#8)) = some 0x04FB#16 := by decide

/-- M13, M14, M16. -/
theorem test_bcd :
    bytesAndI 0xF333 0x300 ((s0.setI 0x300#16).writeV 3 123#8) = some ([1, 2, 3], 0x300#16) ∧
    bytesAndI 0xF033 0x300 ((s0.setI 0x300#16).writeV 0 255#8) = some ([2, 5, 5], 0x300#16) ∧
    bytesAndI 0xF033 0xFFD ((s0.setI 0xFFD#16).writeV 0 7#8) = some ([0, 0, 7], 0xFFD#16) := by decide

/-- M17, M18. -/
theorem test_bcd_past :
    failure (run 0xF033 (s0.setI 0xFFE#16)) =
      some (.addressOutOfRange 0x200#16 (some 0xF033#16) 0x1000) ∧
    failure (run 0xF033 (s0.setI 0x1000#16)) =
      some (.addressOutOfRange 0x200#16 (some 0xF033#16) 0x1000) := by decide

/-- M19, M23. -/
theorem test_store :
    bytesAndI 0xF155 0x400 (((s0.setI 0x400#16).writeV 0 1#8).writeV 1 2#8) =
      some ([1, 2, 0], 0x400#16) ∧
    bytesAndI 0xF055 0x10 ((s0.setI 0x10#16).writeV 0 0x77#8) = some ([0x77, 0xF0, 0x10], 0x10#16) := by
  decide

/-- M20, M21, M22. -/
theorem test_store_edge :
    look (fun t => Memory.read t.mem 0xFFF) (run 0xF055 ((s0.setI 0xFFF#16).writeV 0 0xAA#8)) =
      some 0xAA#8 ∧
    failure (run 0xFF55 (s0.setI 0xFF1#16)) =
      some (.addressOutOfRange 0x200#16 (some 0xFF55#16) 0x1000) ∧
    look (fun t => Memory.read t.mem 0xFFF) (run 0xFF55 ((s0.setI 0xFF0#16).writeV vf 9#8)) =
      some 9#8 := by decide

/-- M24, M25. -/
theorem test_load :
    look (fun t => (t.readV 0, t.readV 1, t.readV 2, t.i))
      (run 0xF265 ((s0.setI 0x300#16).setMem (Memory.writeBytes [] 0x300 [2, 5, 4]))) =
      some (2#8, 5#8, 4#8, 0x300#16) ∧
    look (fun t => (List.range 16).map (fun k => t.readV (BitVec.ofNat 4 k))) (run 0xFF65 s0) =
      some [0xF0, 0x90, 0x90, 0x90, 0xF0, 0x20, 0x60, 0x20, 0x20, 0x70, 0xF0, 0x10, 0xF0, 0x80,
        0xF0, 0xF0] := by decide

/-- M26. -/
theorem test_load_past :
    failure (run 0xF165 (s0.setI 0xFFF#16)) =
      some (.addressOutOfRange 0x200#16 (some 0xF165#16) 0x1000) := by decide

/-! ## Timers -/

/-- T1. -/
theorem test_ldVxDT :
    look (fun t => (t.readV 3, t.dt)) (run 0xF307 (s0.setDT 5#8)) = some (5#8, 4#8) := by decide

/-- T2, T4. -/
theorem test_ldDT :
    look State.dt (run 0xF015 (s0.writeV 0 3#8)) = some 2#8 ∧
    look State.dt (run 0xF015 (s0.setDT 9#8)) = some 0#8 := by decide

/-- T5, T6, T7. -/
theorem test_ldST :
    look (fun t => (t.st, t.beep)) (run 0xF418 (s0.writeV 4 1#8)) = some (0#8, true) ∧
    look (fun t => (t.st, t.beep)) (run 0xF018 (s0.setST 1#8)) = some (0#8, false) ∧
    look (fun t => (t.st, t.beep)) (run 0xF018 ((s0.setST 1#8).writeV 0 5#8)) = some (4#8, false) := by
  decide

/-! ## Input -/

/-- K1, K2, K3, K4. -/
theorem test_keySkips :
    look State.pc (run 0xE29E ((s0.writeV 2 7#8).writeKeys 0x0080#16)) = some 0x204#16 ∧
    look State.pc (run 0xE29E (s0.writeV 2 7#8)) = some 0x202#16 ∧
    look State.pc (run 0xE2A1 (s0.writeV 2 7#8)) = some 0x204#16 ∧
    look State.pc (run 0xE2A1 ((s0.writeV 2 7#8).writeKeys 0x0080#16)) = some 0x202#16 := by decide

/-- K5, K6. -/
theorem test_keyPast :
    failure (run 0xE29E (s0.writeV 2 0x10#8)) = some (.invalidKeyIndex 0x200#16 0xE29E#16 0x10#8) ∧
    failure (run 0xE2A1 ((s0.writeV 2 0xFF#8).writeKeys 0x0001#16)) =
      some (.invalidKeyIndex 0x200#16 0xE2A1#16 0xFF#8) := by decide

/-- K7, K8. -/
theorem test_keyWait :
    look (fun t => (t.readV 5, t.pc)) (run 0xF50A (s0.writeKeys 0x0480#16)) =
      some (0x07#8, 0x202#16) ∧
    look (fun t => (t.readV vf, t.pc)) (run 0xFF0A (s0.writeKeys 0x8000#16)) =
      some (0x0F#8, 0x202#16) := by decide

/-- K9. -/
theorem test_keyPoll :
    look (fun t => (t.pc, t.dt, t.st, t.beep)) (run 0xF50A ((s0.setDT 3#8).setST 1#8)) =
      some (0x200#16, 2#8, 0#8, true) := by decide

/-! ## Display -/

/-- Some pixels, VF and the redraw flag. -/
def pixelsAndFlags (ps : List (Fin 32 × Fin 64)) (t : State) : List Byte × Byte × Bool :=
  (ps.map (fun p => pixel t.display p.1 p.2), t.readV vf, t.redraw)

/-- A display with one pixel set. -/
def onePixel (s : State) (r : Fin 32) (c : Fin 64) : State :=
  s.setDisplay (setPixel s.display r c 0x01#8)

/-- D1. -/
theorem test_cls :
    look (pixelsAndFlags [(0, 0), (31, 63)]) (run 0x00E0 (onePixel (onePixel s0 0 0) 31 63)) =
      some ([0, 0], 0x00#8, true) := by decide

/-- D3, D4: glyph 0 has columns 0 to 3 in row 0 and columns 0 and 3 in row 1. -/
theorem test_drw_glyph :
    look (pixelsAndFlags [(0, 0), (0, 3), (0, 4), (1, 0), (1, 1), (1, 3), (4, 2), (5, 0)]) (run 0xD015 s0) =
      some ([1, 1, 0, 1, 0, 1, 1, 0], 0x00#8, true) ∧
    look (pixelsAndFlags [(0, 0), (0, 1), (1, 0)]) (run 0xD015 (onePixel s0 0 0)) =
      some ([0, 1, 1], 0x01#8, true) := by decide

/-- D5, D6: the edge under `wrap` and under `clip`. -/
theorem test_drw_edge :
    let s := (((s0.writeV 0 62#8).writeV 1 31#8).setI 0x300#16).setMem (Memory.writeBytes [] 0x300 [0xFF])
    look (pixelsAndFlags [(31, 61), (31, 62), (31, 63), (31, 0), (31, 5), (31, 6), (0, 0)])
        (exec (.drw 0 1 1) s) = some ([0, 1, 1, 1, 1, 0, 0], 0x00#8, true) ∧
    look (pixelsAndFlags [(31, 61), (31, 62), (31, 63), (31, 0), (31, 5), (31, 6), (0, 0)])
        (execDrwWith .clip 0 1 1 s) = some ([0, 1, 1, 0, 0, 0, 0], 0x00#8, true) := by decide

/-! ## The host -/

/-- H2: the host's skip after a failed RET. -/
theorem test_host_skip :
    ((System.boot Config.params 0).request .skip).map (fun r => r.1.engine.pc) = some 0x202#16 := by
  decide

/-- H5, H6: a load after the first step is no move; a load past memory is refused. -/
theorem test_load_port :
    System.request { engine := s0, loadOpen := false } (.load 0x200#16 0x12#8) = none ∧
    (System.request { engine := s0, loadOpen := true } (.load 0x1000#16 0x12#8)).map
      (fun r => (r.1.engine.mem, r.2.loadRefused)) = some ([], true) := by decide

/-- A loaded program is what the next step runs (70_reset_and_hazards.md R604). -/
theorem test_load_program :
    (loadProgram s0 [0x6A, 0x2F]).bind (fun s => look (fun t => t.readV 0xA) (step s)) =
      some 0x2F#8 := by decide

/-- H3, and K7's keypad: the redraw clear and the keypad write. -/
theorem test_host_inputs :
    (System.request { engine := s0.setRedraw true, loadOpen := false } .clearRedraw).map
      (fun r => r.1.engine.redraw) = some false ∧
    (System.request { engine := s0, loadOpen := false } (.keys 0x0480#16)).map
      (fun r => r.1.engine.pressedKeys) = some [7#4, 0xA#4] := by decide

/-- The display port's linear index is r*64 + c (R516). -/
theorem test_displayRead : displayRead (onePixel s0 1 2) 66#11 = 0x01#8 := by decide

/-! ## Witnesses: states and operands that meet every hypothesis of a statement -/

/-- The system at reset with a word at PC. -/
abbrev sysAt (w : Nat) : System := { engine := s0.withFetchWord 16 w, loadOpen := true }

theorem witness_DecodeOfEncode :
    Instr.wellFormedWith true (.cls 0x0E#8) = true ∧
    Instr.wellFormedWith false (.drw 0xF#4 0xF#4 0xF#4) = true := by decide

theorem witness_EncodeOfDecode :
    decodeWith true 0x00EE#16 = .ok (.ret 0x0E#8) ∧ decodeWith false 0xFF65#16 = .ok (.loadRegs 0xF#4) := by
  decide

theorem witness_DecodeMatchesOpcodeMap :
    opcodeRows[0]? = some (0xF00F#16, 0x0000#16) ∧ opcodeRows[33]? = some (0xF0FF#16, 0xF065#16) := by
  decide

/-- Each class of R109 has a word. -/
theorem witness_UndefinedWordsAreListed :
    decodeWith true 0x0000#16 = .error (.family0 0x0000#16) ∧
    decodeWith false 0x000F#16 = .error (.family0 0x000F#16) ∧
    decodeWith false 0x5001#16 = .error (.family5 0x5001#16) ∧
    decodeWith false 0x800D#16 = .error (.family8 0x800D#16) ∧
    decodeWith false 0x900F#16 = .error (.family9 0x900F#16) ∧
    decodeWith false 0xE09F#16 = .error (.familyE 0xE09F#16) ∧
    decodeWith false 0xF066#16 = .error (.familyF 0xF066#16) := by decide

theorem witness_FetchIsBigEndian :
    memSize ≤ (s0.setPc 0x1000#16).pc.toNat ∧
    (¬ memSize ≤ (s0.setPc 0xFFF#16).pc.toNat ∧ memSize ≤ (s0.setPc 0xFFF#16).pc.toNat + 1) ∧
    (¬ memSize ≤ (s0.setPc 0xFFE#16).pc.toNat ∧ ¬ memSize ≤ (s0.setPc 0xFFE#16).pc.toNat + 1) := by
  decide

theorem witness_StepRunsDecodedInstruction :
    (∃ f, fetch (s0.setPc 0xFFF#16) = .error f) ∧
    (fetch (s0.withFetchWord 16 0xFFFF) = .ok 0xFFFF#16 ∧ ∃ e, decode 0xFFFF#16 = .error e) ∧
    (fetch s0 = .ok 0x0000#16 ∧ decode 0x0000#16 = .ok (.cls 0x00#8) ∧ ∃ t, exec (.cls 0x00#8) s0 = .next t) ∧
    (fetch (s0.withFetchWord 16 0x00EE) = .ok 0x00EE#16 ∧ decode 0x00EE#16 = .ok (.ret 0x0E#8) ∧
      ∃ f, exec (.ret 0x0E#8) (s0.withFetchWord 16 0x00EE) = .fault f) :=
  ⟨⟨.addressOutOfRange 0xFFF#16 none 0x1000, by decide⟩, ⟨by decide, .familyF 0xFFFF#16, by decide⟩,
    ⟨by decide, by decide, _, rfl⟩,
    ⟨by decide, by decide, _, fault_of_failure (f := .stackUnderflow 0x200#16 0x00EE#16) (by decide)⟩⟩

theorem witness_UndefinedWordFails :
    fetch (sysAt 0xFFFF).engine = .ok 0xFFFF#16 ∧ decode 0xFFFF#16 = .error (.familyF 0xFFFF#16) := by decide

theorem witness_FailedStepChangesNothing :
    ∃ f, stepWith Config.params (sysAt 0x00EE).engine = .fault f :=
  ⟨.stackUnderflow 0x200#16 0x00EE#16, fault_of_failure (by decide)⟩

theorem witness_FailureIgnoresKeypadAndRedraw : ∃ f, step (s0.withFetchWord 16 0x5121) = .fault f :=
  ⟨.unknownOpcode 0x200#16 0x5121#16, fault_of_failure (by decide)⟩

/-- Each kind of failure happens. -/
theorem witness_FailureRecordsPcAndWord :
    step (sysAt 0xFFFF).engine = .fault (.unknownOpcode 0x200#16 0xFFFF#16) ∧
    step ((withStack s0 16 0 0#16).withFetchWord 16 0x2400) = .fault (.stackOverflow 0x200#16 0x2400#16) ∧
    step (sysAt 0x00EE).engine = .fault (.stackUnderflow 0x200#16 0x00EE#16) ∧
    step ((s0.setI 0xFFE#16).withFetchWord 16 0xF033) =
      .fault (.addressOutOfRange 0x200#16 (some 0xF033#16) 0x1000) ∧
    step (s0.setPc 0xFFF#16) = .fault (.addressOutOfRange 0xFFF#16 none 0x1000) ∧
    step ((s0.writeV 2 0x10#8).withFetchWord 16 0xE29E) = .fault (.invalidKeyIndex 0x200#16 0xE29E#16 0x10#8) :=
  ⟨fault_of_failure (by decide), fault_of_failure (by decide), fault_of_failure (by decide),
    fault_of_failure (by decide), fault_of_failure (by decide), fault_of_failure (by decide)⟩

/-- With ST at 0, 1 and 2. -/
theorem witness_CompletedStepTicksTimers :
    (∃ t, step s0 = .next t) ∧ (∃ t, step (s0.setST 1#8) = .next t) ∧ ∃ t, step (s0.setST 2#8) = .next t :=
  ⟨next_of_look (by decide), next_of_look (by decide), next_of_look (by decide)⟩

/-- Each failing condition and its complement, at the boundary. -/
theorem witness_InstructionFailsExactlyWhen :
    (failsWhen s0 (.ret 0x0E#8) ∧ ¬ failsWhen (withStack s0 1 0 0#16) (.ret 0x0E#8)) ∧
    (failsWhen (withStack s0 16 0 0#16) (.call 0#12) ∧ ¬ failsWhen (withStack s0 15 0 0#16) (.call 0#12)) ∧
    (failsWhen (s0.setI 0xFF2#16) (.drw 0 1 15) ∧ ¬ failsWhen (s0.setI 0xFF1#16) (.drw 0 1 15) ∧
      ¬ failsWhen (s0.setI 0xFFFF#16) (.drw 0 1 0)) ∧
    (failsWhen (s0.writeV 2 16#8) (.skp 2) ∧ ¬ failsWhen (s0.writeV 2 15#8) (.skp 2)) ∧
    (failsWhen (s0.writeV 2 16#8) (.sknp 2) ∧ ¬ failsWhen (s0.writeV 2 15#8) (.sknp 2)) ∧
    (failsWhen (s0.setI 0xFFE#16) (.ldBVx 0) ∧ ¬ failsWhen (s0.setI 0xFFD#16) (.ldBVx 0)) ∧
    (failsWhen (s0.setI 0xFF1#16) (.storeRegs 15) ∧ ¬ failsWhen (s0.setI 0xFFF#16) (.storeRegs 0)) ∧
    (failsWhen (s0.setI 0x1000#16) (.loadRegs 0) ∧ ¬ failsWhen (s0.setI 0xFF0#16) (.loadRegs 15)) := by
  unfold failsWhen
  decide

theorem witness_CallPushesItsAddress :
    (withStack s0 16 0 0#16).sp.val = 16 ∧ ¬ (withStack s0 15 0 0#16).sp.val = 16 := by decide

theorem witness_RetPopsReturnAddress :
    s0.sp.val = 0 ∧ ¬ (withStack s0 1 0 0x204#16).sp.val = 0 ∧ ¬ (withStack s0 16 15 0x21E#16).sp.val = 0 := by
  decide

theorem witness_CallThenRetResumesAfterCall : ∃ t, exec (.call 0x300#12) s0 = .next t :=
  next_of_look (by decide)

theorem witness_PcUpdateIsOneOfFive :
    (∃ t, exec (.jpV0 0xFFF#12) (s0.writeV 0 0xFF#8) = .next t) ∧
    (∃ t, exec (.ret 0x0E#8) (withStack s0 1 0 0x204#16) = .next t) ∧
    (∃ t, exec (.seImm 0 0#8) s0 = .next t) ∧ (∃ t, exec (.ldVxK 0) s0 = .next t) ∧
    ∃ t, step s0 = .next t :=
  ⟨next_of_look (by decide), next_of_look (by decide), next_of_look (by decide),
    next_of_look (by decide), next_of_look (by decide)⟩

theorem witness_SelfJumpOnlyTicks :
    fetch (s0.withFetchWord 16 0x1200) = .ok (encode (.jp 0x200#12)) ∧
    (s0.withFetchWord 16 0x1200).pc = zextAddr 0x200#12 := by decide

theorem witness_AddRegisterSetsCarry : (0#4 : RegIdx) ≠ vf := by decide

theorem witness_SubtractionsSetNotBorrow : (1#4 : RegIdx) ≠ vf := by decide

theorem witness_ShiftsSetDroppedBit : (14#4 : RegIdx) ≠ vf := by decide

theorem witness_BcdStoresDecimalDigits :
    memSize ≤ (s0.setI 0xFFE#16).i.toNat + 2 ∧ ¬ memSize ≤ (s0.setI 0xFFD#16).i.toNat + 2 := by decide

theorem witness_StoreRegistersFromI :
    memSize ≤ (s0.setI 0xFF1#16).i.toNat + (15#4 : RegIdx).toNat ∧
    ¬ memSize ≤ (s0.setI 0xFFF#16).i.toNat + (0#4 : RegIdx).toNat := by decide

theorem witness_LoadRegistersFromI :
    memSize ≤ (s0.setI 0x1000#16).i.toNat + (0#4 : RegIdx).toNat ∧
    ¬ memSize ≤ (s0.setI 0xFF0#16).i.toNat + (15#4 : RegIdx).toNat := by decide

theorem witness_StoreThenLoadRestoresRegisters : ∃ t, exec (.storeRegs 15) (s0.setI 0xFF0#16) = .next t :=
  next_of_look (by decide)

theorem witness_StoreIsSeenByFetch :
    (∃ t, exec (.storeRegs 1) (s0.setI 0x300#16) = .next t) ∧ (0#4 : RegIdx).toNat + 1 ≤ (1#4 : RegIdx).toNat :=
  ⟨next_of_look (by decide), by decide⟩

theorem witness_TimerWriteTicksInSameStep :
    fetch (s0.withFetchWord 16 0xF015) = .ok (encode (.ldDTVx 0)) ∧
    fetch ((s0.writeV 4 1#8).withFetchWord 16 0xF418) = .ok (encode (.ldSTVx 4)) := by decide

theorem witness_KeySkips :
    ((s0.writeV 2 15#8).readV 2).toNat = (15#4 : Nibble).toNat ∧ (s0.readV 2).toNat = (0#4 : Nibble).toNat := by
  decide

theorem witness_KeyPastKeypadFails : 15 < ((s0.writeV 2 16#8).readV 2).toNat := by decide

theorem witness_KeyWaitStoresPressedKey :
    (∃ k, (s0.writeKeys 0x8000#16).key k = true) ∧ Config.params.Lawful :=
  ⟨⟨15#4, by decide⟩, fun k ks => by simp [Config.params, Config.lowestKey]⟩

theorem witness_KeyWaitPollsWithoutKey :
    (∀ k, (s0.withFetchWord 16 0xF50A).key k = false) ∧
    fetch (s0.withFetchWord 16 0xF50A) = .ok (encode (.ldVxK 5)) := by decide

/-- A sprite row at the corner: columns 62 and 63, and 0 to 5 under `wrap` alone. -/
theorem witness_BlitInvertsCoveredCells :
    [0xFF#8].length ≤ 15 ∧ spriteCovers .wrap 31 62 [0xFF#8] 31 5 ∧ spriteCovers .clip 31 62 [0xFF#8] 31 63 ∧
    ¬ spriteCovers .clip 31 62 [0x3F#8] 31 63 := by
  refine ⟨by decide, ⟨0, 7, 0xFF#8, by decide⟩, ⟨0, 1, 0xFF#8, by decide⟩, ?_⟩
  rintro ⟨k, col, row, hrow, -, hbit, -, hcol⟩
  have hk : k = 0 := by
    have := (List.getElem?_eq_some_iff.1 hrow).1
    simp at this
    exact this
  subst hk
  have hc : col = 1 := by simp at hcol; omega
  subst hc
  simp at hrow
  subst hrow
  revert hbit
  decide

theorem witness_DrwInvertsCoveredCells :
    (0 < (15#4 : Nibble).toNat ∧ memSize ≤ (s0.setI 0xFF2#16).i.toNat + (15#4 : Nibble).toNat - 1) ∧
    ¬ (0 < (15#4 : Nibble).toNat ∧ memSize ≤ (s0.setI 0xFF1#16).i.toNat + (15#4 : Nibble).toNat - 1) ∧
    ¬ (0 < (0#4 : Nibble).toNat ∧ memSize ≤ (s0.setI 0xFFFF#16).i.toNat + (0#4 : Nibble).toNat - 1) := by
  decide

theorem witness_DrawingTwiceRestoresDisplay :
    (0#4 : RegIdx) ≠ vf ∧ (1#4 : RegIdx) ≠ vf ∧ (∃ t, exec (.drw 0 1 5) s0 = .next t) ∧
    ∀ r c, pixel s0.display r c = 0x00#8 :=
  ⟨by decide, by decide, next_of_look (by decide), fun r c => pixel_clearDisplay r c⟩

theorem witness_RegistersHaveListedWriters :
    (∃ t, exec (.addReg 0 1) s0 = .next t) ∧ ¬ mayWrite (.addReg 0 1) 2#4 :=
  ⟨next_of_look (by decide), by unfold mayWrite; decide⟩

theorem witness_IndexHasThreeWriters : ∃ t, exec (.ldI 0x300#12) s0 = .next t ∧ t.i ≠ s0.i := by
  obtain ⟨t, h, hi⟩ := look_of_next (f := State.i) (r := exec (.ldI 0x300#12) s0) (b := 0x300#16) (by decide)
  exact ⟨t, h, by rw [hi]; decide⟩

theorem witness_StackChangesOnlyByCallAndRet :
    ∃ t, exec (.call 0x300#12) s0 = .next t ∧ t.sp ≠ s0.sp ∧ t.stack ≠ s0.stack := by
  obtain ⟨t, h, hs⟩ := look_of_next (f := fun t => decide (t.sp ≠ s0.sp ∧ t.stack ≠ s0.stack))
    (r := exec (.call 0x300#12) s0) (b := true) (by decide)
  exact ⟨t, h, of_decide_eq_true hs⟩

theorem witness_MemoryHasTwoWriters :
    ∃ t, exec (.storeRegs 0) ((s0.setI 0xFFF#16).writeV 0 7#8) = .next t ∧
      Memory.read t.mem 0xFFF ≠ Memory.read s0.mem 0xFFF := by
  obtain ⟨t, h, hs⟩ := look_of_next (f := fun t => Memory.read t.mem 0xFFF)
    (r := exec (.storeRegs 0) ((s0.setI 0xFFF#16).writeV 0 7#8)) (b := 7#8) (by decide)
  exact ⟨t, h, by rw [hs]; decide⟩

theorem witness_ScreenChangesOnlyByClsAndDrw :
    (∃ t, exec (.cls 0x0E#8) s0 = .next t) ∧ ∃ t, exec (.ldImm 0 1#8) s0 = .next t :=
  ⟨next_of_look (by decide), next_of_look (by decide)⟩

theorem witness_InputsAreOnlyRead : ∃ t, exec (.rnd 0 0#8) s0 = .next t ∧ t.rng ≠ s0.rng := by
  obtain ⟨t, h, hs⟩ := look_of_next (f := fun t => t.rng.draws) (r := exec (.rnd 0 0#8) s0) (b := 1) (by decide)
  exact ⟨t, h, fun e => by rw [e] at hs; exact absurd hs (by decide)⟩

theorem witness_TimersHaveOneWriterEach :
    (∃ t, exec (.ldDTVx 0) (s0.writeV 0 3#8) = .next t ∧ t.dt ≠ (s0.writeV 0 3#8).dt) ∧
    ∃ t, exec (.ldSTVx 0) (s0.writeV 0 3#8) = .next t ∧ t.st ≠ (s0.writeV 0 3#8).st := by
  obtain ⟨t, h, hs⟩ := look_of_next (f := State.dt) (r := exec (.ldDTVx 0) (s0.writeV 0 3#8)) (b := 3#8) (by decide)
  obtain ⟨u, h', hs'⟩ := look_of_next (f := State.st) (r := exec (.ldSTVx 0) (s0.writeV 0 3#8)) (b := 3#8) (by decide)
  exact ⟨⟨t, h, by rw [hs]; decide⟩, ⟨u, h', by rw [hs']; decide⟩⟩

theorem witness_InitializeResetsEverything : ∃ t, t = (s0.setPc 0xFFF#16).hardReset 7 := ⟨_, rfl⟩

/-- A state with memory listed and a pixel set, at the highest PC. -/
abbrev busy : State := onePixel ((s0.setMem [(0x10, 0x77#8), (0x300, 0x05#8)]).setPc 0xFFE#16) 3 4

theorem busy_inv : Inv busy := by
  refine ⟨by decide, ?_, ?_, fun r c => ?_⟩
  · intro k h
    simp [busy, onePixel, State.reset]
  · decide
  · have h : pixel busy.display r c = if r = 3 ∧ c = 4 then 0x01#8 else pixel s0.display r c :=
      pixel_setPixel s0.display 3 r 4 c 0x01#8
    rw [h]
    split
    · exact .inr rfl
    · exact .inl (pixel_clearDisplay r c)

/-- The longest program fits, one byte more does not; the launch of a two-byte program. -/
theorem witness_ResetWithAnyFont :
    (List.replicate 3584 (0#8 : Byte)).length ≤ 3584 ∧ ¬ (List.replicate 3585 (0#8 : Byte)).length ≤ 3584 ∧
    ∃ sys, System.launch Config.params busy 7 [0x6A#8, 0x2F#8] = some sys := by
  rw [List.length_replicate, List.length_replicate]
  exact ⟨by decide, by decide, _, rfl⟩

theorem witness_ResetMeetsInvariant : ∃ sys, Launched Config.params sys := ⟨_, busy, 7, [0x6A#8, 0x2F#8], rfl⟩

theorem witness_StepKeepsInvariant :
    Inv busy ∧ (∃ t, step busy = .next t) ∧ ∃ t, stepWith Config.params busy = .next t :=
  ⟨busy_inv, next_of_look (by decide), next_of_look (by decide)⟩

theorem witness_RequestsKeepInvariant :
    Inv busy ∧
    (∃ r, System.requestWith Config.params { engine := busy, loadOpen := true } (.load 0x300#16 5#8) = some r) ∧
    (∃ r, System.requestWith Config.params { engine := busy, loadOpen := true } .skip = some r) ∧
    ∃ sys, Run Config.params sys ∧ ∃ r, sys.requestWith Config.params .clearRedraw = some r :=
  ⟨busy_inv, ⟨_, rfl⟩, ⟨_, rfl⟩, _, .launched ⟨busy, 7, [0x6A#8, 0x2F#8], rfl⟩, _, rfl⟩

theorem witness_LoadPortWritesInWindow :
    (sysAt 0).loadOpen = true ∧ ({ engine := s0, loadOpen := false } : System).loadOpen = false ∧
    (∃ r, (sysAt 0).request .step = some r) ∧ (∃ r, (sysAt 0).request (.init 3) = some r) ∧
    ((0x1000#16 : Word).toNat = memSize ∧ (0xFFF#16 : Word).toNat < memSize) :=
  ⟨rfl, rfl, ⟨_, rfl⟩, ⟨_, rfl⟩, by decide⟩

end Sys2Proof.Tests
end

/-!
PROOFS. The statements about the state (10_state.md): who writes what, and the invariant. Every one
rests on `execWith_writes` (what an instruction that completes does to the state, PC apart) or on
`execWith_mayLeavePc` (where it leaves PC); both hold under every parameter setting.
-/

namespace Sys2Proof.Proofs

open Sys2Proof.Machine Sys2Proof.Machine.Safety

section Inversion
variable {p : Config.Params} {s t : State} {i : Instr}

/-! ## What an instruction writes (10_state.md R48) -/

/-- `Writes p s i u`: when `i` completes in `s`, `u` is what it makes of `s` before PC is updated.
Instructions that write the general registers alone share one shape, under the condition that every
register they may not write keeps its value. -/
inductive Writes (p : Config.Params) (s : State) : Instr → State → Prop where
  | nothing {i : Instr} : Writes p s i s
  | regs {i : Instr} (v : Vector Byte 16)
      (kept : ∀ r, ¬ mayWrite i r → State.readV { s with v := v } r = s.readV r) :
      Writes p s i { s with v := v }
  | rnd (x : RegIdx) (kk : Byte) :
      Writes p s (.rnd x kk) (s.writeV x (s.nextRandom &&& kk)).countDraw
  | ldI (nnn : Addr12) : Writes p s (.ldI nnn) (s.setI (zextAddr nnn))
  | addIVx (x : RegIdx) : Writes p s (.addIVx x) (s.setI (s.i + zextByte (s.readV x)))
  | ldFVx (x : RegIdx) : Writes p s (.ldFVx x) (s.setI (glyphAddress (s.readV x)))
  | ldDTVx (x : RegIdx) : Writes p s (.ldDTVx x) (s.setDT (s.readV x))
  | ldSTVx (x : RegIdx) : Writes p s (.ldSTVx x) (s.setST (s.readV x))
  | call (nnn : Addr12) (sp : Fin 17) (room : s.sp.val < 16) (pushed : sp.val = s.sp.val + 1) :
      Writes p s (.call nnn) { s with stack := s.stack.set s.sp.val s.pc room, sp := sp }
  | ret (mid : Byte) (sp : Fin 17) (popped : sp.val + 1 = s.sp.val) :
      Writes p s (.ret mid) { s with sp := sp }
  | ldBVx (x : RegIdx) (fits : s.i.toNat + 3 ≤ memSize) :
      Writes p s (.ldBVx x) (s.setMem (Memory.writeBytes s.mem s.i.toNat (bcdDigits (s.readV x))))
  | storeRegs (x : RegIdx) (fits : s.i.toNat + (x.toNat + 1) ≤ memSize) :
      Writes p s (.storeRegs x) (s.setMem (Memory.writeBytes s.mem s.i.toNat (s.lowRegs x)))
  | cls (mid : Byte) : Writes p s (.cls mid) ((s.setDisplay clearDisplay).setRedraw true)
  | drw (x y : RegIdx) (n : Nibble) :
      Writes p s (.drw x y n)
        (((s.setDisplay (drawnCanvas p.spriteEdge x y n s).1).writeV vf
          (flagByte (drawnCanvas p.spriteEdge x y n s).2)).setRedraw true)

theorem Writes.writeV {x : RegIdx} {b : Byte} (hx : mayWrite i x) : Writes p s i (s.writeV x b) :=
  .regs (s.writeV x b).v fun _ hr => State.readV_writeV_other s b fun e => hr (e ▸ hx)

theorem Writes.writeFlagThenResult {x : RegIdx} {f b : Byte} (hx : mayWrite i x)
    (hf : mayWrite i vf) : Writes p s i (s.writeFlagThenResult f x b) :=
  .regs (s.writeFlagThenResult f x b).v fun r hr => by
    have hrx : r ≠ x := fun e => hr (e ▸ hx)
    have hrf : r ≠ vf := fun e => hr (e ▸ hf)
    exact (State.readV_writeFlagThenResult s f x r b).trans (by rw [if_neg hrx, if_neg hrf])

theorem Writes.loadRegs {x : RegIdx} {bs : List Byte} (hlen : bs.length = x.toNat + 1) :
    Writes p s (.loadRegs x) (s.writeRegs 0 bs) := by
  rw [State.writeRegs_eq]
  refine .regs _ fun r hr => ?_
  have hx : x.toNat < 16 := x.isLt
  have hr' : x.toNat < r.toNat := Nat.lt_of_not_le hr
  have hpast : bs[r.toNat]? = none := List.getElem?_eq_none (by omega)
  exact (State.readV_writeRegs bs s 0 (by omega) r).trans (by simp [hpast])

/-- All an instruction that completes does: its writes, and then its PC update. -/
theorem execWith_writes (h : execWith p i s = .next t) : ∃ u pc, Writes p s i u ∧ t = u.setPc pc := by
  cases i
  case jp | jpV0 => cases h; exact ⟨s, _, .nothing, rfl⟩
  case seImm | sneImm | seReg | sneReg => cases h; exact ⟨s, _, .nothing, State.skipIf_eq s _⟩
  case skp => obtain ⟨b, rfl⟩ := execSkp_next h; exact ⟨s, _, .nothing, State.skipIf_eq s b⟩
  case sknp => obtain ⟨b, rfl⟩ := execSknp_next h; exact ⟨s, _, .nothing, State.skipIf_eq s _⟩
  case ldImm | addImm | ldReg | orReg | andReg | xorReg | ldVxDT =>
    cases h; exact ⟨_, _, .writeV rfl, rfl⟩
  case addReg | subReg | shr | subnReg | shl =>
    cases h; exact ⟨_, _, .writeFlagThenResult (.inl rfl) (.inr rfl), rfl⟩
  case ldVxK x =>
    obtain ⟨-, rfl⟩ | ⟨k, ks, -, rfl⟩ := execLdVxKWith_next h
    · exact ⟨t, t.pc, .nothing, rfl⟩
    · exact ⟨_, _, .writeV rfl, rfl⟩
  case loadRegs x =>
    obtain ⟨-, rfl⟩ := execLoadRegs_next h
    exact ⟨_, _, .loadRegs (Memory.length_readBytes ..), rfl⟩
  case rnd x kk => cases h; exact ⟨_, _, .rnd x kk, rfl⟩
  case ldI nnn => cases h; exact ⟨_, _, .ldI nnn, rfl⟩
  case addIVx x => cases h; exact ⟨_, _, .addIVx x, rfl⟩
  case ldFVx x => cases h; exact ⟨_, _, .ldFVx x, rfl⟩
  case ldDTVx x => cases h; exact ⟨_, _, .ldDTVx x, rfl⟩
  case ldSTVx x => cases h; exact ⟨_, _, .ldSTVx x, rfl⟩
  case cls mid => cases h; exact ⟨_, _, .cls mid, rfl⟩
  case drw x y n => obtain ⟨-, rfl⟩ := execDrwWith_next h; exact ⟨_, _, .drw x y n, rfl⟩
  case ldBVx x => obtain ⟨fits, rfl⟩ := execLdBVx_next h; exact ⟨_, _, .ldBVx x fits, rfl⟩
  case storeRegs x =>
    obtain ⟨fits, rfl⟩ := execStoreRegs_next h
    exact ⟨_, _, .storeRegs x fits, rfl⟩
  case call nnn =>
    obtain ⟨u, hu, rfl⟩ := execCall_next h
    obtain ⟨room, pushed, e⟩ := State.pushPc_some hu
    exact ⟨_, _, .call nnn u.sp room pushed, congrArg (State.setPc · _) e⟩
  case ret mid =>
    obtain ⟨u, w, hu, rfl⟩ := execRet_next h
    obtain ⟨-, popped, e, -⟩ := State.pop_some hu
    exact ⟨_, _, .ret mid u.sp popped, congrArg (State.setPc · _) e⟩

theorem exec_writes (h : exec i s = .next t) :
    ∃ u pc, Writes Config.params s i u ∧ t = u.setPc pc :=
  execWith_writes ((execWith_params i s).trans h)

/-! ## Where an instruction leaves PC (40_step_cycle.md R144) -/

theorem skipIf_pc_two_or_four (s : State) (c : Bool) :
    (s.skipIf c).pc = s.pc + 2#16 ∨ (s.skipIf c).pc = s.pc + 4#16 := by
  cases c
  · exact .inl rfl
  · exact .inr rfl

theorem execWith_mayLeavePc (h : execWith p i s = .next t) : mayLeavePc s i t.pc := by
  cases i
  case seImm | sneImm | seReg | sneReg => cases h; exact skipIf_pc_two_or_four s _
  case skp => obtain ⟨b, rfl⟩ := execSkp_next h; exact skipIf_pc_two_or_four s b
  case sknp => obtain ⟨b, rfl⟩ := execSknp_next h; exact skipIf_pc_two_or_four s _
  case ldVxK x =>
    obtain ⟨hnone, rfl⟩ | ⟨k, ks, hsome, rfl⟩ := execLdVxKWith_next h
    · have idle : ¬ ∃ k, t.key k = true := by simp [← State.mem_pressedKeys, hnone]
      simp only [mayLeavePc, if_neg idle]
    · have pressed : ∃ k, s.key k = true := ⟨k, (State.mem_pressedKeys s k).1 (by simp [hsome])⟩
      simp only [mayLeavePc, if_pos pressed]
      rfl
  case ret mid =>
    obtain ⟨u, w, hu, rfl⟩ := execRet_next h
    obtain ⟨pos, popped, -, rfl⟩ := State.pop_some hu
    exact ⟨⟨s.sp.val - 1, by omega⟩, Nat.sub_add_cancel pos, rfl⟩
  case call nnn => obtain ⟨u, -, rfl⟩ := execCall_next h; rfl
  case drw => obtain ⟨-, rfl⟩ := execDrwWith_next h; rfl
  case ldBVx => obtain ⟨-, rfl⟩ := execLdBVx_next h; rfl
  case storeRegs => obtain ⟨-, rfl⟩ := execStoreRegs_next h; rfl
  case loadRegs =>
    obtain ⟨-, rfl⟩ := execLoadRegs_next h
    rw [State.writeRegs_eq]
    rfl
  all_goals cases h; rfl

theorem toNat_add_le (a b : Word) : (a + b).toNat ≤ a.toNat + b.toNat := by
  rw [BitVec.toNat_add]
  exact Nat.mod_le _ _

theorem zextAddr_toNat_le (nnn : Addr12) : (zextAddr nnn).toNat ≤ 0xFFF := by
  rw [zextAddr, BitVec.toNat_setWidth]
  exact (Nat.mod_le _ _).trans (Nat.le_of_lt_succ nnn.isLt)

theorem zextByte_toNat_le (b : Byte) : (zextByte b).toNat ≤ 0xFF := by
  rw [zextByte, BitVec.toNat_setWidth]
  exact (Nat.mod_le _ _).trans (Nat.le_of_lt_succ b.isLt)

/-- The bound of R33: the highest target is that of JP V0,0xFFF with V0 = 0xFF. -/
theorem mayLeavePc_le_maxPc {q : Word} (fetched : s.pc.toNat ≤ 0xFFE)
    (slots : ∀ k (h : k < 16), (s.stack[k]).toNat ≤ 0xFFE) (h : mayLeavePc s i q) :
    q.toNat ≤ maxPc := by
  have two : (s.pc + 2#16).toNat ≤ 0x10FE :=
    (toNat_add_le ..).trans ((Nat.add_le_add_right fetched _).trans (by decide))
  have four : (s.pc + 4#16).toNat ≤ 0x10FE :=
    (toNat_add_le ..).trans ((Nat.add_le_add_right fetched _).trans (by decide))
  cases i
  case jp nnn | call nnn => cases h; exact (zextAddr_toNat_le nnn).trans (by decide)
  case jpV0 nnn =>
    cases h
    exact (toNat_add_le ..).trans
      (Nat.add_le_add (zextAddr_toNat_le nnn) (zextByte_toNat_le (s.readV 0x0#4)))
  case ret mid =>
    obtain ⟨k, -, rfl⟩ := h
    exact (toNat_add_le ..).trans
      ((Nat.add_le_add_right (slots k.val k.isLt) _).trans (by decide))
  case seImm | sneImm | seReg | sneReg | skp | sknp =>
    obtain rfl | rfl := h
    · exact two
    · exact four
  case ldVxK x =>
    simp only [mayLeavePc] at h
    split at h
    · exact h ▸ two
    · exact h ▸ fetched.trans (by decide)
  all_goals cases h; exact two

/-! ## The parts of the invariant -/

/-- Every pixel is 0 or 1 (10_state.md R39). -/
def Binary (d : Display) : Prop := ∀ r c, pixel d r c = 0x00#8 ∨ pixel d r c = 0x01#8

theorem binary_clearDisplay : Binary clearDisplay := fun r c => .inl (pixel_clearDisplay r c)

theorem binary_plot (edge : Config.SpriteEdge) (r c : Nat) {cv : Canvas} (h : Binary cv.1) :
    Binary (plot edge r c cv).1 := fun r' c' => by
  rw [pixel_plot]
  split
  · rcases h r' c' with h | h
    · exact .inr (by rw [h]; rfl)
    · exact .inl (by rw [h]; rfl)
  · exact h r' c'

theorem binary_blitRow (edge : Config.SpriteEdge) (r x0 : Nat) (row : Byte) {cv : Canvas}
    (h : Binary cv.1) : Binary (blitRow edge r x0 row cv).1 := by
  unfold blitRow
  refine List.foldlRecOn (motive := fun cv : Canvas => Binary cv.1) _ _ h fun cv hcv c _ => ?_
  split
  · exact binary_plot edge r (x0 + c) hcv
  · exact hcv

theorem binary_blit (edge : Config.SpriteEdge) (x0 : Nat) (rows : List Byte) (r : Nat) {cv : Canvas}
    (h : Binary cv.1) : Binary (blit edge r x0 rows cv).1 := by
  induction rows generalizing r cv with
  | nil => exact h
  | cons row rows ih => exact ih (r + 1) (binary_blitRow edge r x0 row h)

variable {u : State}

theorem Writes.keeps_slots (hw : Writes p s i u) (fetched : s.pc.toNat ≤ 0xFFE)
    (slots : ∀ k (h : k < 16), (s.stack[k]).toNat ≤ 0xFFE) :
    ∀ k (h : k < 16), (u.stack[k]).toNat ≤ 0xFFE := by
  cases hw with
  | call nnn sp room pushed =>
    intro k h
    simp only [Vector.getElem_set]
    split
    · exact fetched
    · exact slots k h
  | _ => exact slots

theorem Writes.keeps_canonical (hw : Writes p s i u) (canonical : Memory.wf s.mem) :
    Memory.wf u.mem := by
  cases hw with
  | ldBVx x fits => exact Memory.writeBytes_wf _ canonical fits
  | storeRegs x fits =>
    exact Memory.writeBytes_wf _ canonical ((State.lowRegs_length s x).symm ▸ fits)
  | _ => exact canonical

theorem Writes.keeps_binary (hw : Writes p s i u) (binary : Binary s.display) :
    Binary u.display := by
  cases hw with
  | cls mid => exact binary_clearDisplay
  | drw x y n => exact binary_blit _ _ _ _ binary
  | _ => exact binary

/-- The step without its tick. That the word was fetched bounds PC: it is what keeps the slot a CALL
writes, and every advance of PC, within the invariant. -/
theorem execWith_keeps_inv (inv : Inv s) (fetched : s.pc.toNat ≤ 0xFFE)
    (h : execWith p i s = .next t) : Inv t := by
  have pc : t.pc.toNat ≤ maxPc := mayLeavePc_le_maxPc fetched inv.slots (execWith_mayLeavePc h)
  obtain ⟨u, q, hw, rfl⟩ := execWith_writes h
  exact ⟨pc, hw.keeps_slots fetched inv.slots, hw.keeps_canonical inv.memory,
    hw.keeps_binary inv.pixels⟩

theorem inv_timerTick (inv : Inv s) : Inv (timerTick s) :=
  ⟨inv.pc, inv.slots, inv.memory, inv.pixels⟩

theorem stepWith_keeps_inv (inv : Inv s) (h : stepWith p s = .next t) : Inv t := by
  obtain ⟨w, i, u, hfetch, -, hexec, rfl⟩ := stepCycle_next h
  have inMemory : s.pc.toNat + 2 ≤ 4096 := (fetch_ok hfetch).1
  exact inv_timerTick (execWith_keeps_inv inv (by omega) hexec)

/-! ## Reset and launch (70_reset_and_hazards.md R600, R605) -/

theorem inv_setMem {m : List Host.Cell} (inv : Inv s) (canonical : Memory.wf m) : Inv (s.setMem m) :=
  ⟨inv.pc, inv.slots, canonical, inv.pixels⟩

theorem inv_setRng {r : RandomSource} (inv : Inv s) : Inv (s.setRng r) :=
  ⟨inv.pc, inv.slots, inv.memory, inv.pixels⟩

theorem inv_reset : Inv State.reset where
  pc := by decide
  slots k h := by simp [State.reset]
  memory := Memory.reset_wf
  pixels := binary_clearDisplay

theorem resetWith_canonical (font : Vector Byte 80) : Memory.wf (Memory.resetWith font) := by
  have zeroed : Memory.wf (Memory.writeBytes [] 0 (List.replicate memSize 0x00#8)) :=
    Memory.writeBytes_wf _ Memory.reset_wf (by rw [List.length_replicate]; decide)
  exact Memory.writeBytes_wf _ zeroed (by rw [Vector.length_toList]; decide)

theorem inv_hardResetWith (p : Config.Params) (s : State) (seed : Nat) :
    Inv (s.hardResetWith p seed) :=
  inv_setRng (inv_setMem inv_reset (resetWith_canonical p.font))

end Inversion

/-! ## The obligations -/

/-- Settles O58: from `execWith_keeps_inv`, since a completed step fetched its word inside memory. -/
theorem stepKeepsInvariant : Obligations.StepKeepsInvariant := by
  intro s t inv
  exact ⟨fun h => stepWith_keeps_inv inv ((stepWith_params s).trans h),
    fun p h => stepWith_keeps_inv inv h⟩

/-- Settles O48: the three shapes of `Writes` that write a register write one of `mayWrite`. -/
theorem registersHaveListedWriters : Obligations.RegistersHaveListedWriters := by
  intro i s t r h hr
  obtain ⟨u, pc, hw, rfl⟩ := exec_writes h
  cases hw with
  | regs v kept => exact kept r hr
  | rnd x kk => exact State.readV_writeV_other s _ hr
  | drw x y n => exact State.readV_writeV_other (s.setDisplay _) _ hr
  | _ => rfl

/-- Settles O49: three shapes of `Writes` touch I, one for each of its writers. -/
theorem indexHasThreeWriters : Obligations.IndexHasThreeWriters := by
  intro i s t h changed
  obtain ⟨u, pc, hw, rfl⟩ := exec_writes h
  cases hw with
  | ldI nnn => exact .inl ⟨nnn, rfl⟩
  | addIVx x => exact .inr (.inl ⟨x, rfl⟩)
  | ldFVx x => exact .inr (.inr ⟨x, rfl⟩)
  | _ => exact absurd rfl changed

/-- Settles O50: CALL's write is the only one to a slot, RET's the only other one to SP. -/
theorem stackChangesOnlyByCallAndRet : Obligations.StackChangesOnlyByCallAndRet := by
  intro i s t h
  obtain ⟨u, pc, hw, rfl⟩ := exec_writes h
  cases hw with
  | call nnn sp room pushed => exact ⟨fun _ => .inl ⟨nnn, rfl⟩, fun _ => ⟨nnn, rfl⟩⟩
  | ret mid sp popped => exact ⟨fun _ => .inr ⟨mid, rfl⟩, absurd rfl⟩
  | _ => exact ⟨absurd rfl, absurd rfl⟩

/-- Settles O52: CLS and DRW set the flag last; no other instruction writes the screen. -/
theorem screenChangesOnlyByClsAndDrw : Obligations.ScreenChangesOnlyByClsAndDrw := by
  intro i s t h
  split
  case isTrue drawing =>
    obtain ⟨mid, rfl⟩ | ⟨x, y, n, rfl⟩ := drawing
    · cases h; rfl
    · obtain ⟨-, rfl⟩ := execDrwWith_next h; rfl
  case isFalse other =>
    obtain ⟨u, pc, hw, rfl⟩ := exec_writes h
    cases hw with
    | cls mid => exact absurd (.inl ⟨mid, rfl⟩) other
    | drw x y n => exact absurd (.inr ⟨x, y, n, rfl⟩) other
    | _ => exact ⟨rfl, rfl⟩

/-- Settles O53: no shape of `Writes` touches the keypad, and RND's alone counts a draw. -/
theorem inputsAreOnlyRead : Obligations.InputsAreOnlyRead := by
  intro i s t h
  obtain ⟨u, pc, hw, rfl⟩ := exec_writes h
  cases hw with
  | rnd x kk => exact ⟨rfl, fun _ => ⟨x, kk, rfl⟩⟩
  | _ => exact ⟨rfl, absurd rfl⟩

/-- Settles O54: each timer has one shape of `Writes`, and none touches the latched beep. -/
theorem timersHaveOneWriterEach : Obligations.TimersHaveOneWriterEach := by
  intro i s t h
  obtain ⟨u, pc, hw, rfl⟩ := exec_writes h
  cases hw with
  | ldDTVx x => exact ⟨fun _ => ⟨x, rfl⟩, absurd rfl, rfl⟩
  | ldSTVx x => exact ⟨absurd rfl, fun _ => ⟨x, rfl⟩, rfl⟩
  | _ => exact ⟨absurd rfl, absurd rfl, rfl⟩

/-- Settles O57: a launched engine is a reset one with another canonical memory and another seed. -/
theorem resetMeetsInvariant : Obligations.ResetMeetsInvariant := by
  refine ⟨inv_reset, ?_⟩
  rintro p sys ⟨before, seed, program, h⟩
  obtain ⟨fits, rfl⟩ := System.launch_some h
  exact inv_setMem (inv_hardResetWith p before seed)
    (Memory.writeBytes_wf program (resetWith_canonical p.font) fits)

end Sys2Proof.Proofs

/-!
PROOFS. The statements about memory (20_memory.md): which instructions write it, that a fetch sees what
was stored, and the load port.
-/

namespace Sys2Proof.Proofs

open Sys2Proof.Machine

section MemoryFacts
variable {s : State}

/-- The addresses a run of stored bytes can change (20_memory.md R73). -/
theorem inside_of_read_writeBytes_ne {bs : List Byte} {m : List Host.Cell} {a c : Nat}
    (changed : Memory.read (Memory.writeBytes m a bs) c ≠ Memory.read m c) :
    a ≤ c ∧ c < a + bs.length :=
  not_imp_comm.1 (Memory.read_writeBytes_outside bs m) changed

/-- A fetch inside memory, big-endian (20_memory.md R72). -/
theorem fetch_inside (h : s.pc.toNat + 2 ≤ memSize) :
    fetch s = .ok (wordOfBytes (Memory.read s.mem s.pc.toNat)
      (Memory.read s.mem (s.pc.toNat + 1))) := by
  simp [fetch, lowestBadAddress_eq_none.2 (.inr h)]

/-- Where LD [I],Vx leaves each register it stores (43_memory_transfer.md R307). -/
theorem read_writeBytes_lowRegs (s : State) (m : List Host.Cell) (a : Nat) {x k : RegIdx}
    (h : k.toNat ≤ x.toNat) :
    Memory.read (Memory.writeBytes m a (s.lowRegs x)) (a + k.toNat) = s.readV k := by
  simp [Memory.read_writeBytes, State.getElem?_lowRegs, h]

/-! ## The load port (20_memory.md R83) -/

theorem loadByte_refused (s : State) (addr : Word) (data : Byte) :
    (loadByte s addr data).2 = decide (memSize ≤ addr.toNat) := by
  rcases Nat.lt_or_ge addr.toNat memSize with inside | outside
  · rw [loadByte_inside data inside, decide_eq_false (Nat.not_le.2 inside)]
  · rw [loadByte_outside data outside, decide_eq_true outside]

theorem loadByte_frame (s : State) (addr : Word) (data : Byte) :
    (loadByte s addr data).1 = { s with mem := (loadByte s addr data).1.mem } := by
  rcases Nat.lt_or_ge addr.toNat memSize with inside | outside
  · rw [loadByte_inside data inside]; rfl
  · rw [loadByte_outside data outside]

theorem read_loadByte (s : State) (addr : Word) (data : Byte) (a : Nat) :
    Memory.read (loadByte s addr data).1.mem a =
      if a = addr.toNat ∧ a < memSize then data else Memory.read s.mem a := by
  rcases Nat.lt_or_ge addr.toNat memSize with inside | outside
  · have same : (a = addr.toNat ∧ a < memSize) ↔ a = addr.toNat :=
      and_iff_left_of_imp fun e => e ▸ inside
    simp only [loadByte_inside data inside, State.setMem_mem, Memory.read_write, same]
  · have refused : ¬(a = addr.toNat ∧ a < memSize) := by omega
    rw [loadByte_outside data outside, if_neg refused]

theorem request_load_closed {sys : System} (closed : sys.loadOpen = false) (addr : Word)
    (data : Byte) : sys.request (.load addr data) = none := by
  simp [System.request, System.requestWith, closed]

theorem request_load_open {sys : System} (isOpen : sys.loadOpen = true) (addr : Word)
    (data : Byte) :
    sys.request (.load addr data) =
      some ({ sys with engine := (loadByte sys.engine addr data).1 },
        { Response.done with loadRefused := (loadByte sys.engine addr data).2 }) := by
  simp [System.request, System.requestWith, isOpen]

end MemoryFacts

/-! ## The obligations -/

/-- Settles O37: LD [I],Vx leaves V[k] at I + k, and the fetch reads two such bytes. -/
theorem storeIsSeenByFetch : Obligations.StoreIsSeenByFetch := by
  intro x k s t h hk
  obtain ⟨fits, rfl⟩ := execStoreRegs_next h
  have pc : (BitVec.ofNat 16 (s.i.toNat + k.toNat)).toNat = s.i.toNat + k.toNat := by
    rw [BitVec.toNat_ofNat]
    exact Nat.mod_eq_of_lt (lt_of_lt_of_le (by omega) (fits.trans (by decide)))
  have succ : (k + 1#4).toNat = k.toNat + 1 := by bv_omega
  have high := read_writeBytes_lowRegs s s.mem s.i.toNat (Nat.le_of_succ_le hk)
  have low := read_writeBytes_lowRegs s s.mem s.i.toNat (succ ▸ hk)
  rw [succ, ← Nat.add_assoc] at low
  rw [fetch_inside (by simp only [State.setPc_pc, pc]; omega)]
  simp only [State.setPc_pc, State.setPc_mem, State.advance_mem, State.setMem_mem, pc, high, low]

/-- Settles O51: two shapes of `Writes` touch memory, and each stores one run of bytes at I. -/
theorem memoryHasTwoWriters : Obligations.MemoryHasTwoWriters := by
  intro i s t a h changed
  obtain ⟨u, pc, hw, rfl⟩ := exec_writes h
  cases hw with
  | ldBVx x fits =>
    obtain ⟨fromI, below⟩ := inside_of_read_writeBytes_ne changed
    exact .inl ⟨⟨x, rfl⟩, fromI, Nat.le_of_lt_succ below⟩
  | storeRegs x fits =>
    obtain ⟨fromI, below⟩ := inside_of_read_writeBytes_ne changed
    rw [State.lowRegs_length] at below
    exact .inr ⟨x, rfl, fromI, Nat.le_of_lt_succ below⟩
  | _ => exact absurd rfl changed

/-- Settles O60: the window decides whether a load is a move, and `loadByte` what it then does. -/
theorem loadPortWritesInWindow : Obligations.LoadPortWritesInWindow := by
  intro sys addr data
  refine ⟨fun closed => request_load_closed closed addr data, fun isOpen => ?_, ?_, ?_⟩
  · exact ⟨_, _, request_load_open isOpen addr data, isOpen, loadByte_refused sys.engine addr data,
      loadByte_frame sys.engine addr data, read_loadByte sys.engine addr data⟩
  · intro sys' resp step
    cases step
    rfl
  · intro seed sys' resp init
    cases init
    rfl

end Sys2Proof.Proofs

/-!
PROOFS. The statements about the encoding (30_encoding.md): `decodeWith` and `encode` are inverse on
the well-formed instructions, and the masks of the opcode map and the list of R109 follow family by
family.
-/

namespace Sys2Proof.Proofs

open Sys2Proof.Machine

section EncodingFacts
variable {strict : Bool} {w : Word} {i : Instr}

/-! ## The word of an instruction decodes to it (R104) -/

/-- The strict test of R106 passes exactly when the middle byte is well-formed. -/
theorem strict_test_eq_not (strict : Bool) (mid : Byte) :
    (strict && mid != 0x0E#8) = !(!strict || mid == 0x0E#8) := by
  cases strict <;> rfl

/-- A middle byte that is well-formed under a setting decodes there as it does by default. -/
theorem decodeFamily0_packOP0 {mid : Byte} (o : Nibble) (h : (!strict || mid == 0x0E#8) = true) :
    decodeFamily0 strict (packOP0 mid o) = decodeFamily0 false (packOP0 mid o) := by
  unfold decodeFamily0
  rw [fieldMid_packOP0, strict_test_eq_not, h]
  rfl

/-- One case per constructor: the family of its word selects the arm, and the arm reads the fields
back. -/
theorem decodeWith_encode (h : i.wellFormedWith strict = true) :
    decodeWith strict (encode i) = .ok i := by
  cases i
  case cls mid | ret mid =>
    exact (decodeWith_family0 strict (fieldFamily_packOP0 ..)).trans
      ((decodeFamily0_packOP0 _ h).trans (by simp [decodeFamily0]))
  case jp => exact (decodeWith_family1 strict (fieldFamily_packNNN ..)).trans (by simp)
  case call => exact (decodeWith_family2 strict (fieldFamily_packNNN ..)).trans (by simp)
  case seImm => exact (decodeWith_family3 strict (fieldFamily_packXKK ..)).trans (by simp)
  case sneImm => exact (decodeWith_family4 strict (fieldFamily_packXKK ..)).trans (by simp)
  case seReg => exact (decodeWith_family5 strict (fieldFamily_packXYN ..)).trans (by simp)
  case ldImm => exact (decodeWith_family6 strict (fieldFamily_packXKK ..)).trans (by simp)
  case addImm => exact (decodeWith_family7 strict (fieldFamily_packXKK ..)).trans (by simp)
  case ldReg | orReg | andReg | xorReg | addReg | subReg | shr | subnReg | shl =>
    exact (decodeWith_family8 strict (fieldFamily_packXYN ..)).trans (by simp [decodeFamily8])
  case sneReg => exact (decodeWith_family9 strict (fieldFamily_packXYN ..)).trans (by simp)
  case ldI => exact (decodeWith_familyA strict (fieldFamily_packNNN ..)).trans (by simp)
  case jpV0 => exact (decodeWith_familyB strict (fieldFamily_packNNN ..)).trans (by simp)
  case rnd => exact (decodeWith_familyC strict (fieldFamily_packXKK ..)).trans (by simp)
  case drw => exact (decodeWith_familyD strict (fieldFamily_packXYN ..)).trans (by simp)
  case skp | sknp =>
    exact (decodeWith_familyE strict (fieldFamily_packXKK ..)).trans (by simp [decodeFamilyE])
  case ldVxDT | ldVxK | ldDTVx | ldSTVx | addIVx | ldFVx | ldBVx | storeRegs | loadRegs =>
    exact (decodeWith_familyF strict (fieldFamily_packXKK ..)).trans (by simp [decodeFamilyF])

/-! ## A word is rebuilt from the fields its family uses (R102) -/

theorem packNNN_of_fields {f : Nibble} (hf : fieldFamily w = f) : packNNN f (fieldNNN w) = w :=
  hf ▸ packNNN_fields w

theorem packXKK_of_family {f : Nibble} (hf : fieldFamily w = f) :
    packXKK f (fieldX w) (fieldKK w) = w :=
  hf ▸ packXKK_fields w

theorem packXKK_of_fields {f : Nibble} {kk : Byte} (h : fieldFamily w = f ∧ fieldKK w = kk) :
    packXKK f (fieldX w) kk = w :=
  h.2 ▸ packXKK_of_family h.1

theorem packXYN_of_family {f : Nibble} (hf : fieldFamily w = f) :
    packXYN f (fieldX w) (fieldY w) (fieldN w) = w :=
  hf ▸ packXYN_fields w

theorem packXYN_of_fields {f n : Nibble} (h : fieldFamily w = f ∧ fieldN w = n) :
    packXYN f (fieldX w) (fieldY w) n = w :=
  h.2 ▸ packXYN_of_family h.1

theorem packOP0_of_fields {n : Nibble} (h : fieldFamily w = 0x0#4 ∧ fieldN w = n) :
    packOP0 (fieldMid w) n = w :=
  h.2 ▸ packOP0_fields h.1

/-! ## A word that decodes is the word of its instruction (R104, R107) -/

theorem encode_of_decodeFamily0 (hf : fieldFamily w = 0x0#4) (h : decodeFamily0 strict w = .ok i) :
    encode i = w ∧ i.wellFormedWith strict = true := by
  unfold decodeFamily0 at h
  split at h
  · cases h
  · rename_i accepted
    have canonical : (!strict || fieldMid w == 0x0E#8) = true := by
      rw [strict_test_eq_not] at accepted
      simpa only [Bool.not_eq_true', Bool.not_eq_false] using accepted
    split at h <;> cases h <;> rename_i hn <;>
      exact ⟨packOP0_of_fields ⟨hf, hn⟩, canonical⟩

theorem encode_of_decodeFamily8 (hf : fieldFamily w = 0x8#4) (h : decodeFamily8 w = .ok i) :
    encode i = w ∧ i.wellFormedWith strict = true := by
  unfold decodeFamily8 at h
  split at h <;> cases h <;> rename_i hn <;> exact ⟨packXYN_of_fields ⟨hf, hn⟩, rfl⟩

theorem encode_of_decodeFamilyE (hf : fieldFamily w = 0xE#4) (h : decodeFamilyE w = .ok i) :
    encode i = w ∧ i.wellFormedWith strict = true := by
  unfold decodeFamilyE at h
  split at h <;> cases h <;> rename_i hkk <;> exact ⟨packXKK_of_fields ⟨hf, hkk⟩, rfl⟩

theorem encode_of_decodeFamilyF (hf : fieldFamily w = 0xF#4) (h : decodeFamilyF w = .ok i) :
    encode i = w ∧ i.wellFormedWith strict = true := by
  unfold decodeFamilyF at h
  split at h <;> cases h <;> rename_i hkk <;> exact ⟨packXKK_of_fields ⟨hf, hkk⟩, rfl⟩

theorem encode_of_decodeWith (h : decodeWith strict w = .ok i) :
    encode i = w ∧ i.wellFormedWith strict = true := by
  rcases nibble_cases (fieldFamily w) with
    hf | hf | hf | hf | hf | hf | hf | hf | hf | hf | hf | hf | hf | hf | hf | hf
  · exact encode_of_decodeFamily0 hf (decodeWith_family0 strict hf ▸ h)
  · cases (decodeWith_family1 strict hf).symm.trans h; exact ⟨packNNN_of_fields hf, rfl⟩
  · cases (decodeWith_family2 strict hf).symm.trans h; exact ⟨packNNN_of_fields hf, rfl⟩
  · cases (decodeWith_family3 strict hf).symm.trans h; exact ⟨packXKK_of_family hf, rfl⟩
  · cases (decodeWith_family4 strict hf).symm.trans h; exact ⟨packXKK_of_family hf, rfl⟩
  · rw [decodeWith_family5 strict hf] at h
    split at h <;> cases h
    exact ⟨packXYN_of_fields ⟨hf, ‹_›⟩, rfl⟩
  · cases (decodeWith_family6 strict hf).symm.trans h; exact ⟨packXKK_of_family hf, rfl⟩
  · cases (decodeWith_family7 strict hf).symm.trans h; exact ⟨packXKK_of_family hf, rfl⟩
  · exact encode_of_decodeFamily8 hf (decodeWith_family8 strict hf ▸ h)
  · rw [decodeWith_family9 strict hf] at h
    split at h <;> cases h
    exact ⟨packXYN_of_fields ⟨hf, ‹_›⟩, rfl⟩
  · cases (decodeWith_familyA strict hf).symm.trans h; exact ⟨packNNN_of_fields hf, rfl⟩
  · cases (decodeWith_familyB strict hf).symm.trans h; exact ⟨packNNN_of_fields hf, rfl⟩
  · cases (decodeWith_familyC strict hf).symm.trans h; exact ⟨packXKK_of_family hf, rfl⟩
  · cases (decodeWith_familyD strict hf).symm.trans h; exact ⟨packXYN_of_family hf, rfl⟩
  · exact encode_of_decodeFamilyE hf (decodeWith_familyE strict hf ▸ h)
  · exact encode_of_decodeFamilyF hf (decodeWith_familyF strict hf ▸ h)

/-! ## The rows of the opcode map (R105) -/

theorem wellFormed_default (i : Instr) : i.wellFormed = true := by cases i <;> rfl

theorem decode_encode (i : Instr) : decode (encode i) = .ok i :=
  decodeWith_encode (wellFormed_default i)

/-- Each instruction's word matches its own row. -/
theorem encode_matches_row : ∀ i : Instr, Laws.EncodingRow.Statement i
  | .cls mid => Laws.EncodingRow.cls mid
  | .ret mid => Laws.EncodingRow.ret mid
  | .jp nnn => Laws.EncodingRow.jp nnn
  | .call nnn => Laws.EncodingRow.call nnn
  | .seImm x kk => Laws.EncodingRow.seImm x kk
  | .sneImm x kk => Laws.EncodingRow.sneImm x kk
  | .seReg x y => Laws.EncodingRow.seReg x y
  | .ldImm x kk => Laws.EncodingRow.ldImm x kk
  | .addImm x kk => Laws.EncodingRow.addImm x kk
  | .ldReg x y => Laws.EncodingRow.ldReg x y
  | .orReg x y => Laws.EncodingRow.orReg x y
  | .andReg x y => Laws.EncodingRow.andReg x y
  | .xorReg x y => Laws.EncodingRow.xorReg x y
  | .addReg x y => Laws.EncodingRow.addReg x y
  | .subReg x y => Laws.EncodingRow.subReg x y
  | .shr x y => Laws.EncodingRow.shr x y
  | .subnReg x y => Laws.EncodingRow.subnReg x y
  | .shl x y => Laws.EncodingRow.shl x y
  | .sneReg x y => Laws.EncodingRow.sneReg x y
  | .ldI nnn => Laws.EncodingRow.ldI nnn
  | .jpV0 nnn => Laws.EncodingRow.jpV0 nnn
  | .rnd x kk => Laws.EncodingRow.rnd x kk
  | .drw x y n => Laws.EncodingRow.drw x y n
  | .skp x => Laws.EncodingRow.skp x
  | .sknp x => Laws.EncodingRow.sknp x
  | .ldVxDT x => Laws.EncodingRow.ldVxDT x
  | .ldVxK x => Laws.EncodingRow.ldVxK x
  | .ldDTVx x => Laws.EncodingRow.ldDTVx x
  | .ldSTVx x => Laws.EncodingRow.ldSTVx x
  | .addIVx x => Laws.EncodingRow.addIVx x
  | .ldFVx x => Laws.EncodingRow.ldFVx x
  | .ldBVx x => Laws.EncodingRow.ldBVx x
  | .storeRegs x => Laws.EncodingRow.storeRegs x
  | .loadRegs x => Laws.EncodingRow.loadRegs x

/-- A word that matches a row is the word of an instruction of that row: the mask leaves no bit
unaccounted for, since the instruction keeps every bit the mask does not check. -/
theorem exists_encode_of_matches_row {row : Word × Word} (w : Word) :
    ∀ k, opcodeRows[k]? = some row → w &&& row.1 = row.2 → ∃ i, i.row = k ∧ encode i = w
  | 0, rfl, h => ⟨.cls (fieldMid w), rfl, packOP0_of_fields ((and_F00F w 0x0#4 0x0#4).1 h)⟩
  | 1, rfl, h => ⟨.ret (fieldMid w), rfl, packOP0_of_fields ((and_F00F w 0x0#4 0xE#4).1 h)⟩
  | 2, rfl, h => ⟨.jp (fieldNNN w), rfl, packNNN_of_fields ((and_F000 w 0x1#4).1 h)⟩
  | 3, rfl, h => ⟨.call (fieldNNN w), rfl, packNNN_of_fields ((and_F000 w 0x2#4).1 h)⟩
  | 4, rfl, h => ⟨.seImm _ _, rfl, packXKK_of_family ((and_F000 w 0x3#4).1 h)⟩
  | 5, rfl, h => ⟨.sneImm _ _, rfl, packXKK_of_family ((and_F000 w 0x4#4).1 h)⟩
  | 6, rfl, h => ⟨.seReg _ _, rfl, packXYN_of_fields ((and_F00F w 0x5#4 0x0#4).1 h)⟩
  | 7, rfl, h => ⟨.ldImm _ _, rfl, packXKK_of_family ((and_F000 w 0x6#4).1 h)⟩
  | 8, rfl, h => ⟨.addImm _ _, rfl, packXKK_of_family ((and_F000 w 0x7#4).1 h)⟩
  | 9, rfl, h => ⟨.ldReg _ _, rfl, packXYN_of_fields ((and_F00F w 0x8#4 0x0#4).1 h)⟩
  | 10, rfl, h => ⟨.orReg _ _, rfl, packXYN_of_fields ((and_F00F w 0x8#4 0x1#4).1 h)⟩
  | 11, rfl, h => ⟨.andReg _ _, rfl, packXYN_of_fields ((and_F00F w 0x8#4 0x2#4).1 h)⟩
  | 12, rfl, h => ⟨.xorReg _ _, rfl, packXYN_of_fields ((and_F00F w 0x8#4 0x3#4).1 h)⟩
  | 13, rfl, h => ⟨.addReg _ _, rfl, packXYN_of_fields ((and_F00F w 0x8#4 0x4#4).1 h)⟩
  | 14, rfl, h => ⟨.subReg _ _, rfl, packXYN_of_fields ((and_F00F w 0x8#4 0x5#4).1 h)⟩
  | 15, rfl, h => ⟨.shr _ _, rfl, packXYN_of_fields ((and_F00F w 0x8#4 0x6#4).1 h)⟩
  | 16, rfl, h => ⟨.subnReg _ _, rfl, packXYN_of_fields ((and_F00F w 0x8#4 0x7#4).1 h)⟩
  | 17, rfl, h => ⟨.shl _ _, rfl, packXYN_of_fields ((and_F00F w 0x8#4 0xE#4).1 h)⟩
  | 18, rfl, h => ⟨.sneReg _ _, rfl, packXYN_of_fields ((and_F00F w 0x9#4 0x0#4).1 h)⟩
  | 19, rfl, h => ⟨.ldI _, rfl, packNNN_of_fields ((and_F000 w 0xA#4).1 h)⟩
  | 20, rfl, h => ⟨.jpV0 _, rfl, packNNN_of_fields ((and_F000 w 0xB#4).1 h)⟩
  | 21, rfl, h => ⟨.rnd _ _, rfl, packXKK_of_family ((and_F000 w 0xC#4).1 h)⟩
  | 22, rfl, h => ⟨.drw _ _ _, rfl, packXYN_of_family ((and_F000 w 0xD#4).1 h)⟩
  | 23, rfl, h => ⟨.skp _, rfl, packXKK_of_fields ((and_F0FF w 0xE#4 0x9E#8).1 h)⟩
  | 24, rfl, h => ⟨.sknp _, rfl, packXKK_of_fields ((and_F0FF w 0xE#4 0xA1#8).1 h)⟩
  | 25, rfl, h => ⟨.ldVxDT _, rfl, packXKK_of_fields ((and_F0FF w 0xF#4 0x07#8).1 h)⟩
  | 26, rfl, h => ⟨.ldVxK _, rfl, packXKK_of_fields ((and_F0FF w 0xF#4 0x0A#8).1 h)⟩
  | 27, rfl, h => ⟨.ldDTVx _, rfl, packXKK_of_fields ((and_F0FF w 0xF#4 0x15#8).1 h)⟩
  | 28, rfl, h => ⟨.ldSTVx _, rfl, packXKK_of_fields ((and_F0FF w 0xF#4 0x18#8).1 h)⟩
  | 29, rfl, h => ⟨.addIVx _, rfl, packXKK_of_fields ((and_F0FF w 0xF#4 0x1E#8).1 h)⟩
  | 30, rfl, h => ⟨.ldFVx _, rfl, packXKK_of_fields ((and_F0FF w 0xF#4 0x29#8).1 h)⟩
  | 31, rfl, h => ⟨.ldBVx _, rfl, packXKK_of_fields ((and_F0FF w 0xF#4 0x33#8).1 h)⟩
  | 32, rfl, h => ⟨.storeRegs _, rfl, packXKK_of_fields ((and_F0FF w 0xF#4 0x55#8).1 h)⟩
  | 33, rfl, h => ⟨.loadRegs _, rfl, packXKK_of_fields ((and_F0FF w 0xF#4 0x65#8).1 h)⟩

/-! ## The undefined words (R109) -/

theorem exists_error_ite_error_iff (c : Prop) [Decidable c] (e : Undefined) (i : Instr) :
    (∃ e', (if c then .error e else .ok i : Except Undefined Instr) = .error e') ↔ c := by
  by_cases h : c <;> simp [h]

theorem exists_error_ite_ok_iff (c : Prop) [Decidable c] (e : Undefined) (i : Instr) :
    (∃ e', (if c then .ok i else .error e : Except Undefined Instr) = .error e') ↔ ¬c := by
  by_cases h : c <;> simp [h]

/-- The canonical words of CLS and RET, among those the low nibble lets through (R106). -/
theorem fieldMid_eq_0E_iff (hf : fieldFamily w = 0x0#4)
    (hn : fieldN w = 0x0#4 ∨ fieldN w = 0xE#4) :
    fieldMid w = 0x0E#8 ↔ w = 0x00E0#16 ∨ w = 0x00EE#16 := by
  constructor
  · intro hm
    have rebuilt : packOP0 0x0E#8 (fieldN w) = w := hm ▸ packOP0_fields hf
    exact hn.imp (fun hn => (hn ▸ rebuilt).symm) (fun hn => (hn ▸ rebuilt).symm)
  · rintro (rfl | rfl) <;> decide

theorem decodeFamily0_error_iff (hf : fieldFamily w = 0x0#4) :
    (∃ e, decodeFamily0 strict w = .error e) ↔
      (fieldN w ≠ 0x0#4 ∧ fieldN w ≠ 0xE#4) ∨
        (strict = true ∧ w ≠ 0x00E0#16 ∧ w ≠ 0x00EE#16) := by
  by_cases hn : fieldN w = 0x0#4 ∨ fieldN w = 0xE#4
  · have canonical := fieldMid_eq_0E_iff hf hn
    rw [← not_or, ← not_or, ← canonical]
    rcases hn with hn | hn <;> simp [decodeFamily0, hn, exists_error_ite_error_iff]
  · obtain ⟨hn0, hnE⟩ := not_or.1 hn
    simp [decodeFamily0, hn0, hnE]

theorem decodeFamily8_error_iff :
    (∃ e, decodeFamily8 w = .error e) ↔
      fieldN w ∈ [0x8#4, 0x9#4, 0xA#4, 0xB#4, 0xC#4, 0xD#4, 0xF#4] := by
  unfold decodeFamily8
  rcases nibble_cases (fieldN w) with
    hn | hn | hn | hn | hn | hn | hn | hn | hn | hn | hn | hn | hn | hn | hn | hn <;> simp [hn]

theorem decodeFamilyE_error_iff :
    (∃ e, decodeFamilyE w = .error e) ↔ fieldKK w ∉ [0x9E#8, 0xA1#8] := by
  unfold decodeFamilyE
  split <;> simp_all

theorem decodeFamilyF_error_iff :
    (∃ e, decodeFamilyF w = .error e) ↔
      fieldKK w ∉ [0x07#8, 0x0A#8, 0x15#8, 0x18#8, 0x1E#8, 0x29#8, 0x33#8, 0x55#8, 0x65#8] := by
  unfold decodeFamilyF
  split <;> simp_all

end EncodingFacts

/-! ## The obligations -/

/-- Settles O1: `decodeWith_encode`, constructor by constructor. -/
theorem decodeOfEncode : Obligations.DecodeOfEncode :=
  fun _ _ h => decodeWith_encode h

/-- Settles O2: `encode_of_decodeWith`, family by family. -/
theorem encodeOfDecode : Obligations.EncodeOfDecode :=
  fun _ _ _ h => encode_of_decodeWith h

/-- Settles O3: a matching word is the word of an instruction of the row, and decodes to it. -/
theorem decodeMatchesOpcodeMap : Obligations.DecodeMatchesOpcodeMap := by
  intro w k row hrow
  constructor
  · intro h
    obtain ⟨i, hi, rfl⟩ := exists_encode_of_matches_row w k hrow h
    exact ⟨i, decode_encode i, hi⟩
  · rintro ⟨i, hi, rfl⟩
    obtain ⟨rfl, -⟩ := encode_of_decodeWith hi
    obtain ⟨row', hrow', h⟩ := encode_matches_row i
    cases hrow.symm.trans hrow'
    exact h

/-- Settles O4: the rejections of each family are one class of the list. -/
theorem undefinedWordsAreListed : Obligations.UndefinedWordsAreListed := by
  intro strict w
  rcases nibble_cases (fieldFamily w) with
    hf | hf | hf | hf | hf | hf | hf | hf | hf | hf | hf | hf | hf | hf | hf | hf
  · rw [decodeWith_family0 strict hf, decodeFamily0_error_iff hf]; simp [hf]
  · simp [decodeWith_family1 strict hf, hf]
  · simp [decodeWith_family2 strict hf, hf]
  · simp [decodeWith_family3 strict hf, hf]
  · simp [decodeWith_family4 strict hf, hf]
  · rw [decodeWith_family5 strict hf, exists_error_ite_ok_iff]; simp [hf]
  · simp [decodeWith_family6 strict hf, hf]
  · simp [decodeWith_family7 strict hf, hf]
  · rw [decodeWith_family8 strict hf, decodeFamily8_error_iff]; simp [hf]
  · rw [decodeWith_family9 strict hf, exists_error_ite_ok_iff]; simp [hf]
  · simp [decodeWith_familyA strict hf, hf]
  · simp [decodeWith_familyB strict hf, hf]
  · simp [decodeWith_familyC strict hf, hf]
  · simp [decodeWith_familyD strict hf, hf]
  · rw [decodeWith_familyE strict hf, decodeFamilyE_error_iff]; simp [hf]
  · rw [decodeWith_familyF strict hf, decodeFamilyF_error_iff]; simp [hf]

/-- Settles O5: by running the decoder on the seven words. -/
theorem sampleWordsDecode : Obligations.SampleWordsDecode := by
  unfold Obligations.SampleWordsDecode
  decide

/-- Settles O8: the cycle stops at the decoder, and a failed step leaves the engine as it was. -/
theorem undefinedWordFails : Obligations.UndefinedWordFails := by
  refine ⟨⟨.familyF 0xFFFF#16, by decide⟩, fun sys w e hfetch hdecode => ?_⟩
  have hstep : step sys.engine = .fault (.unknownOpcode sys.engine.pc w) := by
    simp [step, stepCycle, hfetch, hdecode, raise]
  refine ⟨hstep, _, _, rfl, ?_⟩
  rw [stepWith_params, hstep, stepResponse_fault]

end Sys2Proof.Proofs

/-!
PROOFS. The statements about the step cycle (40_step_cycle.md). Three equations say what a step is
once its fetch and its decode are known; `exec_answers` says of every instruction whether it completes
or which failure it raises.
-/

namespace Sys2Proof.Proofs

open Sys2Proof.Machine Sys2Proof.Machine.Safety

section Cycle
variable {s : State} {w : Word} {i : Instr}

/-! ## The step, by the outcome of its fetch and its decode (R140) -/

theorem step_of_fetch_error {f : Fault} (hfetch : fetch s = .error f) : step s = .fault f := by
  simp [step, stepCycle, hfetch, raise]

theorem step_of_decode_error {e : Undefined} (hfetch : fetch s = .ok w)
    (hdecode : decode w = .error e) : step s = .fault (.unknownOpcode s.pc w) := by
  simp [step, stepCycle, hfetch, hdecode, raise]

theorem step_of_decode_ok (hfetch : fetch s = .ok w) (hdecode : decode w = .ok i) :
    step s = completeStep (exec i s) := by
  simp [step, stepCycle, hfetch, hdecode]

/-- A fetch with a byte past memory (R141). -/
theorem fetch_outside (h : memSize < s.pc.toNat + 2) :
    fetch s = .error (.addressOutOfRange s.pc none (max s.pc.toNat memSize)) := by
  simp [fetch, lowestBadAddress_eq_some.2 ⟨Nat.two_pos, h, rfl⟩]

/-! ## Whether an instruction completes (60_exceptions.md R502, R503) -/

/-- The failure that an instruction raises in a state, if it raises one. -/
def instrFault (s : State) : Instr → Option Fault
  | .ret mid => if s.sp.val = 0 then some (.stackUnderflow s.pc (encode (.ret mid))) else none
  | .call nnn => if s.sp.val = 16 then some (.stackOverflow s.pc (encode (.call nnn))) else none
  | .skp x => keyFault (encode (.skp x)) x
  | .sknp x => keyFault (encode (.sknp x)) x
  | .drw x y n => accessFault (encode (.drw x y n)) n.toNat
  | .ldBVx x => accessFault (encode (.ldBVx x)) 3
  | .storeRegs x => accessFault (encode (.storeRegs x)) (x.toNat + 1)
  | .loadRegs x => accessFault (encode (.loadRegs x)) (x.toNat + 1)
  | _ => none
where
  /-- The failure of the key test of `withKey` (45_input.md R380). -/
  keyFault (word : Word) (x : RegIdx) : Option Fault :=
    if 15 < (s.readV x).toNat then some (.invalidKeyIndex s.pc word (s.readV x)) else none
  /-- The failure of an access of `n` bytes from I on (20_memory.md R75). -/
  accessFault (word : Word) (n : Nat) : Option Fault :=
    (lowestBadAddress s.i.toNat n).map (.addressOutOfRange s.pc (some word))

/-- `Answers o r`: the result `r` is the failure `o` names, and a next state where it names none. -/
inductive Answers : Option Fault → Result → Prop where
  | fails (f : Fault) : Answers (some f) (.fault f)
  | completes (t : State) : Answers none (.next t)

theorem Answers.eq_fault_iff {o : Option Fault} {r : Result} {f : Fault} (h : Answers o r) :
    r = .fault f ↔ o = some f := by
  cases h <;> simp

theorem Answers.not_refused {o : Option Fault} {r : Result} (h : Answers o r) (q : Refusal) :
    r ≠ .refused q := by
  cases h <;> simp

theorem withAccess_answers (s : State) (w : Word) (n : Nat) (t : State) :
    Answers (instrFault.accessFault s w n) (withAccess s w s.i.toNat n (.next t)) := by
  unfold instrFault.accessFault withAccess
  cases lowestBadAddress s.i.toNat n with
  | none => exact .completes t
  | some bad => exact .fails _

theorem withKey_answers (s : State) (w : Word) (x : RegIdx) (g : Bool → State) :
    Answers (instrFault.keyFault s w x) (withKey s w x fun pressed => .next (g pressed)) := by
  unfold instrFault.keyFault withKey
  rcases Nat.lt_or_ge 15 (s.readV x).toNat with past | key
  · rw [if_pos past, keyIndex_none past]
    exact .fails _
  · rw [if_neg (Nat.not_lt.2 key), keyIndex_some key]
    exact .completes _

theorem execRet_answers (mid : Byte) (s : State) :
    Answers (instrFault s (.ret mid)) (execRet mid s) := by
  rw [instrFault, execRet]
  cases hpop : s.pop with
  | none =>
    rw [if_pos (State.pop_none.1 hpop)]
    exact .fails _
  | some popped =>
    obtain ⟨pos, -⟩ := State.pop_some hpop
    rw [if_neg pos.ne']
    exact .completes _

theorem execCall_answers (nnn : Addr12) (s : State) :
    Answers (instrFault s (.call nnn)) (execCall nnn s) := by
  rw [instrFault, execCall]
  cases hpush : s.pushPc with
  | none =>
    rw [if_pos (State.pushPc_none.1 hpush)]
    exact .fails _
  | some pushed =>
    obtain ⟨room, -⟩ := State.pushPc_some hpush
    rw [if_neg room.ne]
    exact .completes _

theorem execLdVxKWith_answers (select : Nibble → List Nibble → Nibble) (x : RegIdx) (s : State) :
    Answers none (execLdVxKWith select x s) := by
  unfold execLdVxKWith
  cases s.pressedKeys with
  | nil => exact .completes s
  | cons k ks => exact .completes _

/-- Every instruction raises its `instrFault`, and completes where it has none. -/
theorem exec_answers (i : Instr) (s : State) : Answers (instrFault s i) (exec i s) := by
  cases i
  case ret mid => exact execRet_answers mid s
  case call nnn => exact execCall_answers nnn s
  case skp x => exact withKey_answers s _ x s.skipIf
  case sknp x => exact withKey_answers s _ x fun pressed => s.skipIf (!pressed)
  case drw | ldBVx | storeRegs | loadRegs => exact withAccess_answers ..
  case ldVxK x => exact execLdVxKWith_answers _ x s
  all_goals exact .completes _

theorem exec_eq_fault_iff {f : Fault} : exec i s = .fault f ↔ instrFault s i = some f :=
  (exec_answers i s).eq_fault_iff

theorem exec_ne_refused (i : Instr) (s : State) (q : Refusal) : exec i s ≠ .refused q :=
  (exec_answers i s).not_refused q

theorem completeStep_ne_refused {r : Result} {q : Refusal} (h : r ≠ .refused q) :
    completeStep r ≠ .refused q := by
  cases r with
  | next t => exact nofun
  | fault f => exact nofun
  | refused q' => exact h

/-! ## What no failure reads (R150) -/

theorem fetch_setKeypad_setRedraw (s : State) (keys : Vector Bool 16) (r : Bool) :
    fetch ((s.setKeypad keys).setRedraw r) = fetch s := rfl

theorem instrFault_setKeypad_setRedraw (s : State) (keys : Vector Bool 16) (r : Bool) (i : Instr) :
    instrFault ((s.setKeypad keys).setRedraw r) i = instrFault s i := by
  cases i <;> rfl

/-! ## Where an instruction leaves PC (R144) -/

theorem exec_mayLeavePc {t : State} (h : exec i s = .next t) : mayLeavePc s i t.pc :=
  execWith_mayLeavePc ((execWith_params i s).trans h)

end Cycle

/-! ## The obligations -/

/-- Settles O6: a fetch fails exactly when PC + 1 is past memory, at the larger of PC and 4096. -/
theorem fetchIsBigEndian : Obligations.FetchIsBigEndian := by
  intro s
  split
  case isTrue past =>
    rw [step_of_fetch_error (fetch_outside (by omega)), max_eq_left past]
  case isFalse inside =>
    split
    case isTrue straddles =>
      have last : s.pc.toNat + 1 = memSize := by omega
      rw [step_of_fetch_error (fetch_outside (by omega)), max_eq_right (by omega), last]
    case isFalse fits => exact ⟨_, fetch_inside (by omega), wordOfBytes_toNat _ _⟩

/-- Settles O7: the four cases of the cycle, by the three equations of a step. -/
theorem stepRunsDecodedInstruction : Obligations.StepRunsDecodedInstruction := by
  refine fun s => ⟨fun f => step_of_fetch_error, fun w e => step_of_decode_error, ?_, ?_⟩
  · intro w i t hfetch hdecode hexec
    rw [step_of_decode_ok hfetch hdecode, hexec, completeStep]
  · intro w i f hfetch hdecode hexec
    rw [step_of_decode_ok hfetch hdecode, hexec, completeStep]

/-- Settles O10: the fetch, the decode and `instrFault` read neither the keypad nor the redraw flag. -/
theorem failureIgnoresKeypadAndRedraw : Obligations.FailureIgnoresKeypadAndRedraw := by
  intro s f keys r h
  have sameFetch := fetch_setKeypad_setRedraw s keys r
  obtain hfetch | ⟨w, e, hfetch, hdecode, rfl⟩ | ⟨w, i, hfetch, hdecode, hexec⟩ := stepCycle_fault h
  · exact step_of_fetch_error (sameFetch.trans hfetch)
  · exact step_of_decode_error (sameFetch.trans hfetch) hdecode
  · have sameFault := instrFault_setKeypad_setRedraw s keys r i
    have hexec' := exec_eq_fault_iff.2 (sameFault.trans (exec_eq_fault_iff.1 hexec))
    rw [step_of_decode_ok (sameFetch.trans hfetch) hdecode, hexec', completeStep]

/-- Settles O12: the fetch and the decode can only fail, and no instruction answers a refusal. -/
theorem stepNeverRefuses : Obligations.StepNeverRefuses := by
  intro s q
  cases hfetch : fetch s with
  | error f => exact step_of_fetch_error hfetch ▸ nofun
  | ok w =>
    cases hdecode : decode w with
    | error e => exact step_of_decode_error hfetch hdecode ▸ nofun
    | ok i => exact step_of_decode_ok hfetch hdecode ▸ completeStep_ne_refused (exec_ne_refused i s q)

/-- Settles O22: from `exec_mayLeavePc`, since the tick keeps the PC that the instruction left. -/
theorem pcUpdateIsOneOfFive : Obligations.PcUpdateIsOneOfFive := by
  refine ⟨fun i s t => exec_mayLeavePc, fun s t h => ?_⟩
  obtain ⟨w, i, u, hfetch, hdecode, hexec, rfl⟩ := stepCycle_next h
  refine ⟨w, i, hfetch, hdecode, ?_⟩
  rw [timerTick_pc]
  exact exec_mayLeavePc hexec

end Sys2Proof.Proofs

/-!
PROOFS. The statements about control flow (41_control_flow.md). CALL and RET have one equation each for
the state they answer, and the four skips share one lemma, `exec_skipIf`.
-/

namespace Sys2Proof.Proofs

open Sys2Proof.Machine Sys2Proof.Machine.Safety

section ControlFlow
variable {s : State} {i : Instr}

/-! ## The row of an instruction (30_encoding.md R105) -/

theorem encodedAs_of_row {mask value : Word} (h : opcodeRows[i.row]? = some (mask, value)) :
    encodedAs mask value i := by
  obtain ⟨row, hrow, matched⟩ := encode_matches_row i
  cases hrow.symm.trans h
  exact ⟨matched, decode_encode i⟩

/-! ## The targets of the jumps (R202, R208) -/

theorem zextAddr_toNat (nnn : Addr12) : (zextAddr nnn).toNat = nnn.toNat :=
  BitVec.toNat_setWidth_of_le (by decide)

theorem zextByte_toNat (b : Byte) : (zextByte b).toNat = b.toNat :=
  BitVec.toNat_setWidth_of_le (by decide)

/-- The sum fits in PC's 16 bits, so it is neither masked nor wrapped (D9). -/
theorem toNat_zextAddr_add_zextByte (nnn : Addr12) (b : Byte) :
    (zextAddr nnn + zextByte b).toNat = nnn.toNat + b.toNat := by
  have fits : (zextAddr nnn).toNat + (zextByte b).toNat < 2 ^ 16 :=
    (Nat.add_le_add (zextAddr_toNat_le nnn) (zextByte_toNat_le b)).trans_lt (by decide)
  rw [BitVec.toNat_add_of_lt fits, zextAddr_toNat, zextByte_toNat]

theorem changesOnlyPc_setPc (s : State) (w : Word) : changesOnlyPc s (s.setPc w) :=
  ⟨fun _ _ => rfl, rfl, fun _ => rfl, ⟨rfl, rfl⟩, ⟨rfl, rfl, rfl⟩, ⟨rfl, rfl⟩, rfl, rfl⟩

/-! ## The skips (R204 to R207) -/

/-- An instruction that is a skip on a test skips exactly when the condition tested holds. -/
theorem exec_skipIf {c : Bool} {cond : Prop} [Decidable cond] (hexec : exec i s = .next (s.skipIf c))
    (htest : c = true ↔ cond) :
    ∃ t, exec i s = .next t ∧ changesOnlyPc s t ∧
      t.pc = if cond then s.pc + 4#16 else s.pc + 2#16 := by
  refine ⟨_, hexec, State.skipIf_eq s c ▸ changesOnlyPc_setPc s _, ?_⟩
  simp only [State.skipIf_pc, htest]

theorem beq_iff_toNat_eq (a b : Byte) : (a == b) = true ↔ a.toNat = b.toNat :=
  beq_iff_eq.trans BitVec.toNat_inj.symm

theorem bne_iff_toNat_ne (a b : Byte) : (a != b) = true ↔ a.toNat ≠ b.toNat :=
  bne_iff_ne.trans BitVec.toNat_inj.symm.not

/-! ## CALL and RET (R201, R203) -/

theorem exec_call (nnn : Addr12) (room : s.sp.val < 16) :
    exec (.call nnn) s = .next { s with
      stack := s.stack.set s.sp.val s.pc room
      sp := ⟨s.sp.val + 1, Nat.succ_lt_succ room⟩
      pc := zextAddr nnn } := by
  simp only [exec, execCall, State.pushPc, dif_pos room, State.setPc]

theorem exec_ret (mid : Byte) (pos : 0 < s.sp.val) :
    exec (.ret mid) s = .next { s with
      sp := ⟨s.sp.val - 1, by omega⟩
      pc := s.stack[s.sp.val - 1]'(by omega) + 2#16 } := by
  simp only [exec, execRet, State.pop, dif_pos pos, State.setPc]

theorem call_has_room {nnn : Addr12} {t : State} (h : exec (.call nnn) s = .next t) :
    s.sp.val < 16 := by
  obtain ⟨u, hpush, -⟩ := execCall_next h
  exact (State.pushPc_some hpush).1

/-- All that CALL and RET leave as it was: everything but the stack, SP and PC. -/
theorem frame_of_stack_sp_pc (s : State) (stack : Vector Word 16) (sp : Fin 17) (pc : Word) :
    let t := { s with stack := stack, sp := sp, pc := pc }
    keepsRegsBut [] s t ∧ t.i = s.i ∧ keepsMemory s t ∧ keepsTimers s t ∧ keepsScreen s t ∧
      keepsInputs s t :=
  ⟨fun _ _ => rfl, rfl, fun _ => rfl, ⟨rfl, rfl, rfl⟩, ⟨rfl, rfl⟩, rfl, rfl⟩

end ControlFlow

/-! ## The obligations -/

/-- Settles O17: the push fails exactly at SP = 16, and `exec_call` is the state it answers else. -/
theorem callPushesItsAddress : Obligations.CallPushesItsAddress := by
  refine fun nnn s => ⟨encodedAs_of_row rfl, ?_⟩
  split
  case isTrue full => exact exec_eq_fault_iff.2 (if_pos full)
  case isFalse notFull =>
    have room : s.sp.val < 16 := by omega
    refine ⟨_, exec_call nnn room, zextAddr_toNat nnn, rfl, fun k h => ?_,
      frame_of_stack_sp_pc ..⟩
    simp only [Vector.getElem_set, eq_comm]

/-- Settles O18: the pop fails exactly at SP = 0, and `exec_ret` is the state it answers else. -/
theorem retPopsReturnAddress : Obligations.RetPopsReturnAddress := by
  intro mid s
  split
  case isTrue empty => exact exec_eq_fault_iff.2 (if_pos empty)
  case isFalse notEmpty =>
    have pos : 0 < s.sp.val := Nat.pos_of_ne_zero notEmpty
    exact ⟨_, exec_ret mid pos, Nat.sub_add_cancel pos, fun _ => rfl, rfl,
      frame_of_stack_sp_pc ..⟩

/-- Settles O19: the slot that RET uncovers is the one that CALL has just written. -/
theorem callThenRetResumesAfterCall : Obligations.CallThenRetResumesAfterCall := by
  intro nnn mid s t h
  have room : s.sp.val < 16 := call_has_room h
  cases (exec_call nnn room).symm.trans h
  have uncovered : (s.stack.set s.sp.val s.pc room)[s.sp.val] = s.pc := Vector.getElem_set_self room
  exact ⟨_, exec_ret mid (Nat.succ_pos _), congrArg (· + 2#16) uncovered, rfl, fun _ _ => rfl, rfl,
    fun _ => rfl⟩

/-- Settles O23: the jump leaves PC where it was, so the step is the tick alone. -/
theorem selfJumpOnlyTicks : Obligations.SelfJumpOnlyTicks := by
  intro nnn s hfetch hself
  have stays : exec (.jp nnn) s = .next s :=
    calc exec (.jp nnn) s = .next (s.setPc (zextAddr nnn)) := rfl
      _ = .next (s.setPc s.pc) := by rw [hself]
      _ = .next s := rfl
  exact ⟨timerTick s, by rw [step_of_decode_ok hfetch (decode_encode _), stays, completeStep], rfl⟩

/-- Settles O15: the target is nnn zero-extended, and the jump sets PC alone. -/
theorem jumpSetsPc : Obligations.JumpSetsPc :=
  fun nnn s => ⟨encodedAs_of_row rfl, _, rfl, zextAddr_toNat nnn, changesOnlyPc_setPc s _⟩

/-- Settles O16: the sum fits in PC, and the jump sets PC alone. -/
theorem jumpV0AddsUnmasked : Obligations.JumpV0AddsUnmasked :=
  fun nnn s => ⟨_, rfl, toNat_zextAddr_add_zextByte nnn _, changesOnlyPc_setPc s _⟩

/-- Settles O20: both are skips, on the two outcomes of one comparison. -/
theorem skipOnImmediate : Obligations.SkipOnImmediate :=
  fun _ _ _ => ⟨encodedAs_of_row rfl, encodedAs_of_row rfl,
    exec_skipIf rfl (beq_iff_toNat_eq _ _), exec_skipIf rfl (bne_iff_toNat_ne _ _)⟩

/-- Settles O21: as O20, with a register in place of the immediate byte. -/
theorem skipOnRegister : Obligations.SkipOnRegister :=
  fun _ _ _ => ⟨encodedAs_of_row rfl, encodedAs_of_row rfl,
    exec_skipIf rfl (beq_iff_toNat_eq _ _), exec_skipIf rfl (bne_iff_toNat_ne _ _)⟩

end Sys2Proof.Proofs

/-!
PROOFS. The statements about arithmetic and logic (42_arith_logic.md). Every instruction here ends in one
of two states: a result written to `V[x]`, or a flag written to VF and then the result to `V[x]`. Each has
its frame once; what is left per instruction is the arithmetic of its result and of its flag.
-/

namespace Sys2Proof.Proofs

open Sys2Proof.Machine Sys2Proof.Machine.Safety

section ArithLogic
variable {s : State} {i : Instr}

/-! ## What an instruction that writes `V[x]` leaves as it was -/

theorem changesOnlyRegs_writeV (s : State) (x : RegIdx) (b : Byte) :
    changesOnlyRegs [x] s (s.writeV x b).advance :=
  ⟨fun _ h => State.readV_writeV_other s b (List.ne_of_not_mem_cons h),
    rfl, fun _ => rfl, ⟨rfl, rfl⟩, ⟨rfl, rfl, rfl⟩, ⟨rfl, rfl⟩, rfl, rfl⟩

theorem changesOnlyRegs_writeFlagThenResult (s : State) (flag : Byte) (x : RegIdx) (result : Byte) :
    changesOnlyRegs [x, vf] s (s.writeFlagThenResult flag x result).advance := by
  refine ⟨fun r h => ?_, rfl, fun _ => rfl, ⟨rfl, rfl⟩, ⟨rfl, rfl, rfl⟩, ⟨rfl, rfl⟩, rfl, rfl⟩
  have notX : r ≠ x := List.ne_of_not_mem_cons h
  have notVf : r ≠ vf := List.ne_of_not_mem_cons (List.not_mem_of_not_mem_cons h)
  rw [State.advance_readV, State.readV_writeFlagThenResult, if_neg notX, if_neg notVf]

@[simp] theorem readV_writeV_advance (s : State) (x : RegIdx) (b : Byte) :
    (s.writeV x b).advance.readV x = b := State.readV_writeV_same s x b

/-! ## The shape of an instruction with a flag (R250) -/

/-- An instruction that writes a flag and then a result is specified by the two numbers they are: the result
survives in VF for x = F (D3), and VF holds the flag for any other x. -/
theorem exec_flagThenResult {flag result : Byte} {x : RegIdx} {f r : Nat}
    (hexec : exec i s = .next (s.writeFlagThenResult flag x result).advance)
    (hresult : result.toNat = r) (hflag : flag.toNat = f) :
    ∃ t, exec i s = .next t ∧ (t.readV x).toNat = r ∧ (x ≠ vf → (t.readV vf).toNat = f) ∧
      t.pc = s.pc + 2#16 ∧ changesOnlyRegs [x, vf] s t := by
  refine ⟨_, hexec, ?_, fun notVf => ?_, rfl, changesOnlyRegs_writeFlagThenResult s flag x result⟩
  · rw [State.advance_readV, State.readV_writeFlagThenResult, if_pos rfl, hresult]
  · rw [State.advance_readV, State.readV_writeFlagThenResult, if_neg notVf.symm, if_pos rfl, hflag]

/-! ## The flags as numbers (R31) -/

theorem toNat_flagByte (b : Bool) : (flagByte b).toNat = b.toNat := by cases b <;> rfl

theorem toNat_carryFlag (a b : Byte) :
    (carryFlag a b).toNat = if 255 < a.toNat + b.toNat then 1 else 0 := by
  rw [carryFlag, toNat_flagByte, Bool.toNat, Bool.cond_decide]

theorem toNat_notBorrowFlag (a b : Byte) :
    (notBorrowFlag a b).toNat = if b.toNat ≤ a.toNat then 1 else 0 := by
  rw [notBorrowFlag, toNat_flagByte, Bool.toNat, Bool.cond_decide]

theorem toNat_shiftRightFlag (a : Byte) : (shiftRightFlag a).toNat = a.toNat % 2 := by
  rw [shiftRightFlag, toNat_flagByte, BitVec.getLsbD, Nat.toNat_testBit, pow_zero, Nat.div_one]

/-- Bit 7 is the whole quotient by 128, since a byte is below 256. -/
theorem toNat_shiftLeftFlag (a : Byte) : (shiftLeftFlag a).toNat = a.toNat / 128 := by
  have quotient : a.toNat / 128 < 2 := Nat.div_lt_of_lt_mul a.isLt
  rw [shiftLeftFlag, toNat_flagByte, BitVec.getLsbD, Nat.toNat_testBit]
  exact Nat.mod_eq_of_lt quotient

/-! ## The results as numbers (R261) -/

/-- The spec's difference mod 256, with 256 added first so that it is a natural number. -/
theorem toNat_byte_sub (a b : Byte) : (a - b).toNat = (256 + a.toNat - b.toNat) % 256 := by
  rw [BitVec.toNat_sub, Nat.sub_add_comm b.isLt.le]

theorem toNat_shiftRight_one (a : Byte) : (a >>> 1).toNat = a.toNat / 2 := by
  rw [BitVec.toNat_ushiftRight, Nat.shiftRight_one]

theorem toNat_shiftLeft_one (a : Byte) : (a <<< 1).toNat = a.toNat * 2 % 256 := by
  rw [BitVec.toNat_shiftLeft, Nat.shiftLeft_eq, pow_one]

end ArithLogic

/-! ## The obligations -/

/-- Settles O26: the sum of two bytes wraps at 256, and the carry says whether it did. -/
theorem addRegisterSetsCarry : Obligations.AddRegisterSetsCarry :=
  fun _ _ _ => exec_flagThenResult rfl (BitVec.toNat_add _ _) (toNat_carryFlag _ _)

/-- Settles O27: SUBN is SUB's difference and NOT-borrow with the operands exchanged. -/
theorem subtractionsSetNotBorrow : Obligations.SubtractionsSetNotBorrow :=
  fun _ _ _ => ⟨exec_flagThenResult rfl (toNat_byte_sub _ _) (toNat_notBorrowFlag _ _),
    exec_flagThenResult rfl (toNat_byte_sub _ _) (toNat_notBorrowFlag _ _)⟩

/-- Settles O28: halving drops bit 0 and doubling drops bit 7, whatever the y field. -/
theorem shiftsSetDroppedBit : Obligations.ShiftsSetDroppedBit :=
  fun _ _ _ => ⟨exec_flagThenResult rfl (toNat_shiftRight_one _) (toNat_shiftRightFlag _),
    exec_flagThenResult rfl (toNat_shiftLeft_one _) (toNat_shiftLeftFlag _)⟩

/-- Settles O24: the sum wraps at 256 and is the one register written. -/
theorem addImmediateWraps : Obligations.AddImmediateWraps := by
  refine fun x kk s => ⟨encodedAs_of_row rfl, _, rfl, ?_, rfl, changesOnlyRegs_writeV s x _⟩
  rw [readV_writeV_advance, BitVec.toNat_add]

/-- Settles O25: each writes one register, with the bit vector's operation on the two read. -/
theorem logicIsBitwise : Obligations.LogicIsBitwise := by
  refine fun x y s => ⟨encodedAs_of_row rfl, encodedAs_of_row rfl, encodedAs_of_row rfl,
    ⟨_, rfl, rfl, changesOnlyRegs_writeV s x _, fun k => ?_⟩,
    ⟨_, rfl, rfl, changesOnlyRegs_writeV s x _, fun k => ?_⟩,
    ⟨_, rfl, rfl, changesOnlyRegs_writeV s x _, fun k => ?_⟩⟩
  · rw [readV_writeV_advance, BitVec.getLsbD_or]
  · rw [readV_writeV_advance, BitVec.getLsbD_and]
  · rw [readV_writeV_advance, BitVec.getLsbD_xor]

/-- Settles O29: the register is written as by any masked byte, and the draw count alone moves on. -/
theorem randomDrawsOneMaskedByte : Obligations.RandomDrawsOneMaskedByte := by
  intro x kk s
  obtain ⟨regs, hi, mem, stack, timers, screen, keypad, -⟩ :=
    changesOnlyRegs_writeV s x (s.nextRandom &&& kk)
  refine ⟨_, rfl, fun k => ?_, rfl, rfl, regs, hi, mem, stack, timers, screen, keypad⟩
  rw [State.advance_readV, State.countDraw_readV, State.readV_writeV_same, BitVec.getLsbD_and]

end Sys2Proof.Proofs

/-!
PROOFS. The statements about memory and register transfer (43_memory_transfer.md). The three instructions
that write I share one lemma, `exec_setI`; the three that access memory share `exec_access`, the address
check of R300 before an access that completes.
-/

namespace Sys2Proof.Proofs

open Sys2Proof.Machine Sys2Proof.Machine.Safety

section Transfer
variable {s t : State} {i : Instr}

/-! ## The shape of an instruction that writes I (R303 to R305) -/

theorem changesOnlyI_setI (s : State) (w : Word) : changesOnlyI s (s.setI w).advance :=
  ⟨fun _ _ => rfl, fun _ => rfl, ⟨rfl, rfl⟩, ⟨rfl, rfl, rfl⟩, ⟨rfl, rfl⟩, rfl, rfl⟩

/-- An instruction that writes I is specified by the number that it writes. -/
theorem exec_setI {w : Word} {n : Nat} (hexec : exec i s = .next (s.setI w).advance)
    (hw : w.toNat = n) :
    ∃ t, exec i s = .next t ∧ t.i.toNat = n ∧ t.pc = s.pc + 2#16 ∧ changesOnlyI s t :=
  ⟨_, hexec, hw, rfl, changesOnlyI_setI s w⟩

theorem toNat_add_zextByte (w : Word) (b : Byte) :
    (w + zextByte b).toNat = (w.toNat + b.toNat) % 65536 := by
  rw [BitVec.toNat_add, zextByte_toNat]

/-- Five times a byte fits in I's 16 bits, so no glyph address is masked (D5). -/
theorem toNat_glyphAddress (b : Byte) : (glyphAddress b).toNat = 5 * b.toNat := by
  have fits : 5 * b.toNat < 2 ^ 16 := by omega
  rw [glyphAddress, fontBase, Nat.zero_add, BitVec.toNat_ofNat, Nat.mod_eq_of_lt fits]

/-! ## The shape of an instruction that accesses memory (R300) -/

/-- An access of the bytes from I to I + n fails where I + n is past memory, at the larger of I and 4096,
and completes as if unchecked everywhere else. -/
theorem exec_access {n : Nat} {Post : State → Prop}
    (hexec : exec i s = withAccess s (encode i) s.i.toNat (n + 1) (.next t)) (hpost : Post t) :
    if memSize ≤ s.i.toNat + n then
      exec i s = .fault (.addressOutOfRange s.pc (some (encode i)) (max s.i.toNat memSize))
    else ∃ t, exec i s = .next t ∧ Post t := by
  split
  case isTrue past => exact hexec.trans (withAccess_outside n.succ_pos (by omega))
  case isFalse inside => exact ⟨t, hexec.trans (withAccess_inside (.inr (by omega))), hpost⟩

/-! ## Storing a run of bytes (R306, R307) -/

theorem changesOnlyBytes_writeBytes (s : State) (a : Nat) (bs : List Byte) :
    changesOnlyBytes a bs.length s (s.setMem (Memory.writeBytes s.mem a bs)).advance :=
  ⟨fun _ _ => rfl, rfl, ⟨⟨rfl, rfl⟩, ⟨rfl, rfl, rfl⟩, ⟨rfl, rfl⟩, rfl, rfl⟩,
    fun _ => Memory.read_writeBytes_outside bs s.mem⟩

/-- The three digits of a byte, each of which fits in a byte, at the addresses they are stored at. -/
theorem read_writeBytes_bcdDigits (m : List Host.Cell) (a : Nat) (b : Byte) :
    (Memory.read (Memory.writeBytes m a (bcdDigits b)) a).toNat = b.toNat / 100 ∧
    (Memory.read (Memory.writeBytes m a (bcdDigits b)) (a + 1)).toNat = b.toNat / 10 % 10 ∧
    (Memory.read (Memory.writeBytes m a (bcdDigits b)) (a + 2)).toNat = b.toNat % 10 := by
  have digit (k : Nat) (hk : k < 3) :=
    congrArg BitVec.toNat (Memory.read_writeBytes_inside (bcdDigits b) m a k hk)
  refine ⟨(digit 0 (by decide)).trans ?_, (digit 1 (by decide)).trans ?_,
    (digit 2 (by decide)).trans ?_⟩
  all_goals exact (BitVec.toNat_ofNat _ _).trans (Nat.mod_eq_of_lt (by omega))

/-! ## Loading a run of registers (R308) -/

theorem writeRegs_frame (s : State) (k : Nat) (bs : List Byte) :
    (s.writeRegs k bs).pc = s.pc ∧ (s.writeRegs k bs).i = s.i ∧
      keepsMemory s (s.writeRegs k bs) ∧ keepsDevices s (s.writeRegs k bs) := by
  rw [State.writeRegs_eq]
  exact ⟨rfl, rfl, fun _ => rfl, ⟨rfl, rfl⟩, ⟨rfl, rfl, rfl⟩, ⟨rfl, rfl⟩, rfl, rfl⟩

theorem readV_writeRegs_readBytes (s : State) (m : List Host.Cell) (a : Nat) (x k : RegIdx) :
    (s.writeRegs 0 (Memory.readBytes m a (x.toNat + 1))).readV k =
      if k.toNat ≤ x.toNat then Memory.read m (a + k.toNat) else s.readV k := by
  have fits : 0 + (Memory.readBytes m a (x.toNat + 1)).length ≤ 16 := by
    rw [Memory.length_readBytes, Nat.zero_add]
    exact x.isLt
  rw [State.readV_writeRegs _ _ _ fits, if_pos (Nat.zero_le _), Nat.sub_zero, Memory.getElem?_readBytes]
  by_cases loaded : k.toNat ≤ x.toNat <;> simp [loaded]

end Transfer

/-! ## The obligations -/

/-- Settles O33: the access is of three bytes, and they are the three digits. -/
theorem bcdStoresDecimalDigits : Obligations.BcdStoresDecimalDigits := by
  intro x s
  obtain ⟨hundreds, tens, ones⟩ := read_writeBytes_bcdDigits s.mem s.i.toNat (s.readV x)
  exact exec_access rfl ⟨hundreds, tens, ones, rfl, changesOnlyBytes_writeBytes s _ _⟩

/-- Settles O34: the access is of x + 1 bytes, and they are the registers up to x. -/
theorem storeRegistersFromI : Obligations.StoreRegistersFromI := by
  intro x s
  have frame := changesOnlyBytes_writeBytes s s.i.toNat (s.lowRegs x)
  rw [State.lowRegs_length] at frame
  exact exec_access rfl ⟨fun k => read_writeBytes_lowRegs s s.mem s.i.toNat, rfl, frame⟩

/-- Settles O35: the access is of x + 1 bytes, and loading them writes registers alone. -/
theorem loadRegistersFromI : Obligations.LoadRegistersFromI := by
  intro x s
  obtain ⟨pc, index, mem, devices⟩ :=
    writeRegs_frame s 0 (Memory.readBytes s.mem s.i.toNat (x.toNat + 1))
  exact exec_access rfl
    ⟨readV_writeRegs_readBytes s s.mem s.i.toNat x, congrArg (· + 2#16) pc, index, mem, devices⟩

/-- Settles O36: the load reads where the store wrote, since neither the store nor `v` changes I. -/
theorem storeThenLoadRestoresRegisters : Obligations.StoreThenLoadRestoresRegisters := by
  intro x s t v h
  obtain ⟨fits, rfl⟩ := execStoreRegs_next h
  refine ⟨_, withAccess_inside (.inr fits), fun k hk => ?_⟩
  rw [State.advance_readV, readV_writeRegs_readBytes, if_pos hk]
  exact read_writeBytes_lowRegs s s.mem s.i.toNat hk

/-- Settles O30: each writes one register, with the immediate byte or the register read. -/
theorem loadsRegisterFromImmediateOrRegister : Obligations.LoadsRegisterFromImmediateOrRegister :=
  fun x _ _ s => ⟨encodedAs_of_row rfl, encodedAs_of_row rfl,
    ⟨_, rfl, readV_writeV_advance s x _, rfl, changesOnlyRegs_writeV s x _⟩,
    ⟨_, rfl, readV_writeV_advance s x _, rfl, changesOnlyRegs_writeV s x _⟩⟩

/-- Settles O31: nnn is zero-extended, and the sum wraps at 65536. -/
theorem indexLoadAndAdd : Obligations.IndexLoadAndAdd :=
  fun _ _ _ => ⟨encodedAs_of_row rfl, encodedAs_of_row rfl,
    exec_setI rfl (zextAddr_toNat _), exec_setI rfl (toNat_add_zextByte _ _)⟩

/-- Settles O32: the product is not masked, for a digit or for any larger byte (D4, D5). -/
theorem fontAddressIsFiveTimesDigit : Obligations.FontAddressIsFiveTimesDigit :=
  fun _ _ => exec_setI rfl (toNat_glyphAddress _)

end Sys2Proof.Proofs

/-!
PROOFS. The statements about the timers (44_timer.md). `timerTick_numbers` says what the tick at the end of
a step does to the timers and the beep; every step of this family is an instruction's result put through it.
-/

namespace Sys2Proof.Proofs

open Sys2Proof.Machine

section Timers
variable {s u : State} {i : Instr}

/-! ## The tick at the end of a step (R354, R356) -/

/-- The tick in numbers: the subtraction stops at 0. -/
theorem timerTick_numbers (u : State) :
    (timerTick u).dt.toNat = u.dt.toNat - 1 ∧ (timerTick u).st.toNat = u.st.toNat - 1 ∧
      ((timerTick u).beep = true ↔ u.st.toNat = 1) :=
  ⟨tickDown_toNat u.dt, tickDown_toNat u.st, beq_iff_toNat_eq u.st 0x01#8⟩

theorem timerTick_frame (u : State) :
    timerTick u =
      { u with dt := (timerTick u).dt, st := (timerTick u).st, beep := (timerTick u).beep } := rfl

/-- A step that fetches the word of an instruction that completes is that instruction, then the tick. -/
theorem step_of_fetch_encode (hfetch : fetch s = .ok (encode i)) (hexec : exec i s = .next u) :
    step s = .next (timerTick u) := by
  rw [step_of_decode_ok hfetch (decode_encode i), hexec, completeStep]

/-! ## The transfers to and from a timer (R351 to R353) -/

theorem exec_ldDTVx (x : RegIdx) (s : State) :
    exec (.ldDTVx x) s = .next (s.setDT (s.readV x)).advance := rfl

theorem exec_ldSTVx (x : RegIdx) (s : State) :
    exec (.ldSTVx x) s = .next (s.setST (s.readV x)).advance := rfl

end Timers

/-! ## The obligations -/

/-- Settles O13: a completed step is the result of its instruction put through the tick. -/
theorem completedStepTicksTimers : Obligations.CompletedStepTicksTimers := by
  intro s t h
  obtain ⟨w, i, u, hfetch, hdecode, hexec, rfl⟩ := stepCycle_next h
  obtain ⟨dt, st, beep⟩ := timerTick_numbers u
  exact ⟨w, i, u, hfetch, hdecode, hexec, dt, st, beep, timerTick_frame u⟩

/-- Settles O39: the tick follows the write, so it finds V[x] in the timer. -/
theorem timerWriteTicksInSameStep : Obligations.TimerWriteTicksInSameStep := by
  refine fun x s => ⟨fun hfetch => ?delay, fun hfetch => ?sound⟩
  case delay =>
    obtain ⟨dt, -, -⟩ := timerTick_numbers (s.setDT (s.readV x)).advance
    exact ⟨_, step_of_fetch_encode hfetch (exec_ldDTVx x s), dt⟩
  case sound =>
    obtain ⟨-, st, beep⟩ := timerTick_numbers (s.setST (s.readV x)).advance
    exact ⟨_, step_of_fetch_encode hfetch (exec_ldSTVx x s), st, beep⟩

/-- Settles O38: each transfer is one write, of a register or of a timer, and the advance of PC. -/
theorem timerTransfers : Obligations.TimerTransfers := by
  refine fun x s => ⟨?readDelay, ?writeDelay, ?writeSound⟩
  case readDelay => exact ⟨_, rfl, readV_writeV_advance s x s.dt, rfl, changesOnlyRegs_writeV s x s.dt⟩
  case writeDelay =>
    exact ⟨_, exec_ldDTVx x s, rfl, rfl, fun _ _ => rfl, rfl, fun _ => rfl, ⟨rfl, rfl⟩, ⟨rfl, rfl⟩,
      ⟨rfl, rfl⟩, rfl, rfl⟩
  case writeSound =>
    exact ⟨_, exec_ldSTVx x s, rfl, rfl, fun _ _ => rfl, rfl, fun _ => rfl, ⟨rfl, rfl⟩, ⟨rfl, rfl⟩,
      ⟨rfl, rfl⟩, rfl, rfl⟩

end Sys2Proof.Proofs

/-!
PROOFS. The statements about input (45_input.md). The skips on a key share `withKey_of_key` and are skips
like any other; LD Vx,K is one of two states, by whether the list of the pressed keys is empty.
-/

namespace Sys2Proof.Proofs

open Sys2Proof.Machine

section Input
variable {s : State} {x : RegIdx} {k : Nibble} {ks : List Nibble}

/-! ## The skips on a key (R380 to R382) -/

/-- Where V[x] names a key, the test is of that key's level. -/
theorem withKey_of_key (h : (s.readV x).toNat = k.toNat) (w : Word) (test : Bool → Result) :
    withKey s w x test = test (s.key k) := by
  rw [withKey, keyIndex_of_toNat h]

theorem exec_skp (h : (s.readV x).toNat = k.toNat) :
    exec (.skp x) s = .next (s.skipIf (s.key k)) := by
  rw [exec, execSkp, withKey_of_key h]

theorem exec_sknp (h : (s.readV x).toNat = k.toNat) :
    exec (.sknp x) s = .next (s.skipIf (!s.key k)) := by
  rw [exec, execSknp, withKey_of_key h]

/-! ## The pressed keys (R383) -/

theorem pressedKeys_eq_nil_iff : s.pressedKeys = [] ↔ ∀ k, s.key k = false := by
  simp only [List.eq_nil_iff_forall_not_mem, State.mem_pressedKeys, Bool.not_eq_true]

theorem exists_pressedKeys_eq_cons (pressed : ∃ k, s.key k = true) :
    ∃ k ks, s.pressedKeys = k :: ks := by
  obtain ⟨k, hk⟩ := pressed
  exact List.exists_cons_of_ne_nil (List.ne_nil_of_mem ((s.mem_pressedKeys k).2 hk))

theorem key_of_mem {q : Nibble} (hkeys : s.pressedKeys = k :: ks) (h : q ∈ k :: ks) :
    s.key q = true :=
  (s.mem_pressedKeys q).1 (hkeys ▸ h)

/-- No pressed key lies below the first of the list, since the list rises (D7). -/
theorem first_le_key (hkeys : s.pressedKeys = k :: ks) {j : Nibble} (hj : s.key j = true) :
    k.toNat ≤ j.toNat := by
  have rising : (k :: ks).Pairwise (fun a b => a.toNat < b.toNat) := hkeys ▸ s.pressedKeys_sorted
  have listed : j ∈ k :: ks := hkeys ▸ (s.mem_pressedKeys j).2 hj
  obtain rfl | later := List.mem_cons.1 listed
  · exact le_rfl
  · exact (List.rel_of_pairwise_cons rising later).le

/-! ## LD Vx,K (R383, R384) -/

theorem execLdVxKWith_of_pressed (select : Nibble → List Nibble → Nibble) (x : RegIdx)
    (hkeys : s.pressedKeys = k :: ks) :
    execLdVxKWith select x s = .next (s.writeV x ((select k ks).setWidth 8)).advance := by
  rw [execLdVxKWith, hkeys]

/-- With no key pressed the instruction polls: it answers the state it was given (D22). -/
theorem exec_ldVxK_of_unpressed (x : RegIdx) (unpressed : ∀ k, s.key k = false) :
    exec (.ldVxK x) s = .next s := by
  rw [exec, execLdVxK, execLdVxKWith, pressedKeys_eq_nil_iff.2 unpressed]

/-- A key's number fits in a register. -/
theorem readV_writeV_key (s : State) (x : RegIdx) (k : Nibble) :
    ((s.writeV x (k.setWidth 8)).advance.readV x).toNat = k.toNat := by
  rw [readV_writeV_advance, BitVec.toNat_setWidth_of_le (by decide)]

end Input

/-! ## The obligations -/

/-- Settles O42: the first key of the rising list is the lowest, and a lawful choice is of the list. -/
theorem keyWaitStoresPressedKey : Obligations.KeyWaitStoresPressedKey := by
  intro x s pressed
  obtain ⟨k, ks, hkeys⟩ := exists_pressedKeys_eq_cons pressed
  refine ⟨?lowest, fun p lawful => ?anyLawful⟩
  case lowest =>
    exact ⟨_, k, execLdVxKWith_of_pressed Config.lowestKey x hkeys, key_of_mem hkeys List.mem_cons_self,
      fun _ => first_le_key hkeys, readV_writeV_key s x k, rfl, changesOnlyRegs_writeV s x _⟩
  case anyLawful =>
    exact ⟨_, _, execLdVxKWith_of_pressed p.keySelect x hkeys, key_of_mem hkeys (lawful k ks),
      readV_writeV_key s x _, rfl, changesOnlyRegs_writeV s x _⟩

/-- Settles O43: the poll answers the state itself, so its step is the tick alone. -/
theorem keyWaitPollsWithoutKey : Obligations.KeyWaitPollsWithoutKey := by
  intro x s unpressed
  have poll := exec_ldVxK_of_unpressed x unpressed
  obtain ⟨dt, st, -⟩ := timerTick_numbers s
  exact ⟨poll, fun hfetch =>
    ⟨_, step_of_fetch_encode hfetch poll, rfl, dt, st, timerTick_frame s⟩⟩

/-- Settles O40: both are skips on the key's level, SKNP on the level inverted. -/
theorem keySkips : Obligations.KeySkips := by
  refine fun x k s hkey => ⟨exec_skipIf (exec_skp hkey) Iff.rfl, ?_⟩
  have inverted : (!s.key k) = true ↔ ¬ s.key k = true := by simp
  simpa only [ite_not] using exec_skipIf (exec_sknp hkey) inverted

/-- Settles O41: above 15 the key test of either instruction is its failure. -/
theorem keyPastKeypadFails : Obligations.KeyPastKeypadFails :=
  fun _ _ past => ⟨exec_eq_fault_iff.2 (if_pos past), exec_eq_fault_iff.2 (if_pos past)⟩

end Sys2Proof.Proofs

/-!
PROOFS. The statements about the display (46_display.md). `Inverts` says what a part of a drawing does to a
canvas; parts that touch different cells compose (`Inverts.union`), and no two pixels of a sprite touch one
cell, since its 8 columns and 15 rows are fewer than the display's 64 and 32.
-/

namespace Sys2Proof.Proofs

open Sys2Proof.Machine Sys2Proof.Machine.Safety

/-- A cell of the display: its row and its column. -/
abbrev Cell := Fin 32 × Fin 64

/-- From `cv` to `cv'` the cells of `A` are inverted and no others, and a collision is reported if one was
reported before or a cell of `A` held 1 (R401). -/
structure Inverts (A : Set Cell) (cv cv' : Canvas) : Prop where
  inside : ∀ p ∈ A, pixel cv'.1 p.1 p.2 = pixel cv.1 p.1 p.2 ^^^ 0x01#8
  outside : ∀ p ∉ A, pixel cv'.1 p.1 p.2 = pixel cv.1 p.1 p.2
  collision : cv'.2 = true ↔ cv.2 = true ∨ ∃ p ∈ A, pixel cv.1 p.1 p.2 = 0x01#8

section Rasterizer
variable {A B : Set Cell} {cv cv₁ cv₂ : Canvas} {edge : Config.SpriteEdge} {p : Cell}

/-! ## Drawings in parts -/

theorem Inverts.nothing (cv : Canvas) : Inverts ∅ cv cv where
  inside _ hp := absurd hp (Set.notMem_empty _)
  outside _ _ := rfl
  collision := by simp

/-- The second part finds its own cells as they were before the first. -/
theorem Inverts.union (hA : Inverts A cv cv₁) (hB : Inverts B cv₁ cv₂) (apart : Disjoint A B) :
    Inverts (A ∪ B) cv cv₂ where
  inside := by
    rintro p (hp | hp)
    · rw [hB.outside p (apart.notMem_of_mem_left hp), hA.inside p hp]
    · rw [hB.inside p hp, hA.outside p (apart.notMem_of_mem_right hp)]
  outside p hp := by
    rw [hB.outside p fun h => hp (.inr h), hA.outside p fun h => hp (.inl h)]
  collision := by
    have untouched :
        (∃ p ∈ B, pixel cv₁.1 p.1 p.2 = 0x01#8) ↔ ∃ p ∈ B, pixel cv.1 p.1 p.2 = 0x01#8 :=
      exists_congr fun p => and_congr_right fun hp => by
        rw [hA.outside p (apart.notMem_of_mem_right hp)]
    rw [hB.collision, hA.collision, untouched]
    simp only [Set.mem_union, or_and_right, exists_or, or_assoc]

/-- A loop over parts of which no two touch one cell inverts the cells of all of them. -/
theorem inverts_foldl {α : Type} {draw : Canvas → α → Canvas} {cells : α → Set Cell}
    (hdraw : ∀ cv a, Inverts (cells a) cv (draw cv a)) (l : List α)
    (apart : l.Pairwise fun a b => Disjoint (cells a) (cells b)) (cv : Canvas) :
    Inverts (⋃ a ∈ l, cells a) cv (l.foldl draw cv) := by
  induction l generalizing cv with
  | nil => simpa using Inverts.nothing cv
  | cons a l ih =>
    obtain ⟨first, rest⟩ := List.pairwise_cons.1 apart
    have union := (hdraw cv a).union (ih rest (draw cv a)) (Set.disjoint_iUnion₂_right.2 first)
    simpa [Set.iUnion_or, Set.iUnion_union_distrib] using union

/-- A draw that starts with no collision reports its own alone. -/
theorem Inverts.collision_iff {d : Display} (h : Inverts A (d, false) cv) :
    cv.2 = true ↔ ∃ p ∈ A, pixel d p.1 p.2 = 0x01#8 :=
  h.collision.trans (or_iff_right Bool.false_ne_true)

/-- Drawing the same cells again restores every pixel. -/
theorem Inverts.twice {b : Bool} (first : Inverts A cv cv₁) (second : Inverts A (cv₁.1, b) cv₂)
    (p : Cell) : pixel cv₂.1 p.1 p.2 = pixel cv.1 p.1 p.2 := by
  by_cases hp : p ∈ A
  · rw [second.inside p hp, first.inside p hp, BitVec.xor_assoc, BitVec.xor_self, BitVec.xor_zero]
  · rw [second.outside p hp, first.outside p hp]

/-! ## One pixel (R401) -/

theorem plot_inverts (edge : Config.SpriteEdge) (r c : Nat) (cv : Canvas) :
    Inverts {p | placePixel edge r c = some p} cv (plot edge r c cv) where
  inside p hp := (pixel_plot edge r c cv p.1 p.2).trans (if_pos hp)
  outside p hp := (pixel_plot edge r c cv p.1 p.2).trans (if_neg hp)
  collision := plot_collision edge r c cv

theorem placePixel_wrap_eq_some {r c : Nat} :
    placePixel .wrap r c = some p ↔ r % 32 = p.1.val ∧ c % 64 = p.2.val := by
  simp [placePixel, Prod.ext_iff, Fin.ext_iff]

theorem placePixel_clip_eq_some {r c : Nat} :
    placePixel .clip r c = some p ↔ r = p.1.val ∧ c = p.2.val := by
  by_cases inside : r < 32 ∧ c < 64
  · simp [placePixel, inside, Prod.ext_iff, Fin.ext_iff]
  · simp only [placePixel, dif_neg inside, reduceCtorEq, false_iff]
    omega

/-- Under either edge rule the cell is the place mod the display's size. -/
theorem placePixel_mod {r c : Nat} (h : placePixel edge r c = some p) :
    r % 32 = p.1.val ∧ c % 64 = p.2.val := by
  cases edge with
  | wrap => exact placePixel_wrap_eq_some.1 h
  | clip =>
    obtain ⟨rfl, rfl⟩ := placePixel_clip_eq_some.1 h
    exact ⟨Nat.mod_eq_of_lt p.1.isLt, Nat.mod_eq_of_lt p.2.isLt⟩

/-! ## One sprite row (R401) -/

/-- The cell of one bit of a sprite row, if the bit is 1 and its pixel is not clipped. -/
def bitCells (edge : Config.SpriteEdge) (r x0 : Nat) (row : Byte) (col : Nat) : Set Cell :=
  {p | spriteBit row col = true ∧ placePixel edge r (x0 + col) = some p}

/-- The cells of a sprite row. -/
def rowCells (edge : Config.SpriteEdge) (r x0 : Nat) (row : Byte) : Set Cell :=
  ⋃ col ∈ List.range 8, bitCells edge r x0 row col

theorem drawBit_inverts (edge : Config.SpriteEdge) (r x0 : Nat) (row : Byte) (cv : Canvas) (col : Nat) :
    Inverts (bitCells edge r x0 row col) cv
      (if spriteBit row col then plot edge r (x0 + col) cv else cv) := by
  unfold bitCells
  split
  case isTrue lit => simpa [lit] using plot_inverts edge r (x0 + col) cv
  case isFalse unlit => simpa [unlit] using Inverts.nothing cv

theorem bitCells_disjoint (r x0 : Nat) (row : Byte) {a b : Nat} (ha : a < 8) (hb : b < 8) (h : a ≠ b) :
    Disjoint (bitCells edge r x0 row a) (bitCells edge r x0 row b) := by
  rw [Set.disjoint_left]
  rintro p ⟨-, placedA⟩ ⟨-, placedB⟩
  obtain ⟨-, colA⟩ := placePixel_mod placedA
  obtain ⟨-, colB⟩ := placePixel_mod placedB
  omega

theorem blitRow_inverts (edge : Config.SpriteEdge) (r x0 : Nat) (row : Byte) (cv : Canvas) :
    Inverts (rowCells edge r x0 row) cv (blitRow edge r x0 row cv) := by
  refine inverts_foldl (drawBit_inverts edge r x0 row) _ ?_ cv
  exact List.nodup_range.pairwise_of_forall_ne fun a ha b hb =>
    bitCells_disjoint r x0 row (List.mem_range.1 ha) (List.mem_range.1 hb)

theorem mem_rowCells {r x0 : Nat} {row : Byte} : p ∈ rowCells edge r x0 row ↔
    ∃ col < 8, spriteBit row col = true ∧ placePixel edge r (x0 + col) = some p := by
  simp [rowCells, bitCells, and_left_comm]

theorem row_of_mem_rowCells {r x0 : Nat} {row : Byte} (h : p ∈ rowCells edge r x0 row) :
    r % 32 = p.1.val := by
  obtain ⟨col, -, -, placed⟩ := mem_rowCells.1 h
  exact (placePixel_mod placed).1

/-! ## The whole sprite (R401) -/

/-- The cells that a sprite covers. -/
def spriteCells (edge : Config.SpriteEdge) (y0 x0 : Nat) (rows : List Byte) : Set Cell :=
  {p | spriteCovers edge y0 x0 rows p.1 p.2}

theorem mem_spriteCells {y0 x0 : Nat} {rows : List Byte} : p ∈ spriteCells edge y0 x0 rows ↔
    ∃ k row, rows[k]? = some row ∧ p ∈ rowCells edge (y0 + k) x0 row := by
  have covers : spriteCovers edge y0 x0 rows p.1 p.2 ↔ ∃ k col row, rows[k]? = some row ∧ col < 8 ∧
      spriteBit row col = true ∧ placePixel edge (y0 + k) (x0 + col) = some p := by
    cases edge with
    | wrap => simp only [placePixel_wrap_eq_some]; rfl
    | clip => simp only [placePixel_clip_eq_some]; rfl
  refine covers.trans (exists_congr fun k => exists_comm.trans (exists_congr fun row => ?_))
  rw [mem_rowCells, exists_and_left]

theorem spriteCells_nil (y0 x0 : Nat) : spriteCells edge y0 x0 [] = ∅ := by
  ext p
  simp [mem_spriteCells]

theorem spriteCells_cons (y0 x0 : Nat) (row : Byte) (rows : List Byte) :
    spriteCells edge y0 x0 (row :: rows) = rowCells edge y0 x0 row ∪ spriteCells edge (y0 + 1) x0 rows := by
  ext p
  rw [Set.mem_union, mem_spriteCells, mem_spriteCells, ← Nat.or_exists_add_one]
  simp [Nat.add_right_comm, Nat.add_assoc]

theorem rowCells_disjoint_spriteCells (y0 x0 : Nat) (row : Byte) {rows : List Byte} (h : rows.length < 32) :
    Disjoint (rowCells edge y0 x0 row) (spriteCells edge (y0 + 1) x0 rows) := by
  rw [Set.disjoint_left]
  intro p inRow inSprite
  obtain ⟨k, row', hk, inLater⟩ := mem_spriteCells.1 inSprite
  have bound : k < rows.length := (List.getElem?_eq_some_iff.1 hk).1
  have here := row_of_mem_rowCells inRow
  have there := row_of_mem_rowCells inLater
  omega

/-- Up to 32 rows are drawn on rows of the display that all differ, so no cell is inverted twice. -/
theorem blit_inverts (edge : Config.SpriteEdge) (y0 x0 : Nat) {rows : List Byte} (h : rows.length ≤ 32)
    (cv : Canvas) : Inverts (spriteCells edge y0 x0 rows) cv (blit edge y0 x0 rows cv) := by
  induction rows generalizing y0 cv with
  | nil => exact spriteCells_nil (edge := edge) y0 x0 ▸ Inverts.nothing cv
  | cons row rows ih =>
    rw [spriteCells_cons]
    exact (blitRow_inverts edge y0 x0 row cv).union (ih (y0 + 1) (Nat.le_of_succ_le h) _)
      (rowCells_disjoint_spriteCells y0 x0 row h)

end Rasterizer

section Drawing
variable {x y : RegIdx} {n : Nibble} {s t : State}

/-! ## DRW (R402) -/

/-- The state that DRW answers where its sprite lies inside memory. -/
def drawn (x y : RegIdx) (n : Nibble) (s : State) : State :=
  (((s.setDisplay (drawnCanvas .wrap x y n s).1).writeV vf
    (flagByte (drawnCanvas .wrap x y n s).2)).setRedraw true).advance

/-- The cells that the sprite of a DRW covers. -/
def drawnCells (x y : RegIdx) (n : Nibble) (s : State) : Set Cell :=
  spriteCells .wrap (startRow (s.readV y)) (startColumn (s.readV x))
    (Memory.readBytes s.mem s.i.toNat n.toNat)

theorem exec_drw (fits : n.toNat = 0 ∨ s.i.toNat + n.toNat ≤ memSize) :
    exec (.drw x y n) s = .next (drawn x y n s) :=
  withAccess_inside fits

theorem exec_drw_next (h : exec (.drw x y n) s = .next t) :
    (n.toNat = 0 ∨ s.i.toNat + n.toNat ≤ memSize) ∧ t = drawn x y n s :=
  execDrwWith_next h

theorem drawnCanvas_inverts (x y : RegIdx) (n : Nibble) (s : State) :
    Inverts (drawnCells x y n s) (s.display, false) (drawnCanvas .wrap x y n s) := by
  have rows : (Memory.readBytes s.mem s.i.toNat n.toNat).length ≤ 32 := by
    rw [Memory.length_readBytes]
    exact n.isLt.le.trans (by decide)
  exact blit_inverts .wrap _ _ rows _

theorem drawn_readV_vf (x y : RegIdx) (n : Nibble) (s : State) :
    (drawn x y n s).readV vf = flagByte (drawnCanvas .wrap x y n s).2 :=
  State.readV_writeV_same (s.setDisplay _) vf _

theorem drawn_frame (x y : RegIdx) (n : Nibble) (s : State) :
    changesOnlyScreen [vf] s (drawn x y n s) :=
  ⟨fun _ h => State.readV_writeV_other (s.setDisplay _) _ (List.ne_of_not_mem_cons h),
    rfl, fun _ => rfl, ⟨rfl, rfl⟩, ⟨rfl, rfl, rfl⟩, rfl, rfl⟩

/-- VF is 1 exactly when a covered cell held 1 (R31, R402). -/
theorem drawn_vf_eq_one_iff (x y : RegIdx) (n : Nibble) (s : State) :
    (drawn x y n s).readV vf = 0x01#8 ↔
      ∃ p ∈ drawnCells x y n s, pixel s.display p.1 p.2 = 0x01#8 := by
  rw [drawn_readV_vf, flagByte_eq_one, (drawnCanvas_inverts x y n s).collision_iff]

theorem flagByte_zero_or_one (b : Bool) : flagByte b = 0x00#8 ∨ flagByte b = 0x01#8 := by
  cases b <;> decide

theorem drawn_vf_zero_or_one (x y : RegIdx) (n : Nibble) (s : State) :
    (drawn x y n s).readV vf = 0x00#8 ∨ (drawn x y n s).readV vf = 0x01#8 :=
  drawn_readV_vf x y n s ▸ flagByte_zero_or_one _

/-- A second DRW draws at the same place, since neither coordinate is in VF. -/
theorem drawnCells_drawn (hx : x ≠ vf) (hy : y ≠ vf) :
    drawnCells x y n (drawn x y n s) = drawnCells x y n s := by
  obtain ⟨regs, -⟩ := drawn_frame x y n s
  have column : (drawn x y n s).readV x = s.readV x := regs x (by simpa using hx)
  have row : (drawn x y n s).readV y = s.readV y := regs y (by simpa using hy)
  rw [drawnCells, row, column]
  rfl

end Drawing

/-! ## The obligations -/

/-- Settles O45: `blit_inverts`, since 15 rows are within its bound of 32. -/
theorem blitInvertsCoveredCells : Obligations.BlitInvertsCoveredCells := by
  intro edge y0 x0 rows d hrows
  have inverts := blit_inverts edge y0 x0 (hrows.trans (by decide)) (d, false)
  exact ⟨fun r c => ⟨inverts.inside (r, c), inverts.outside (r, c)⟩,
    inverts.collision_iff.trans Prod.exists⟩

/-- Settles O46: the access is of n bytes, and inside memory the answer is `drawn`. -/
theorem drwInvertsCoveredCells : Obligations.DrwInvertsCoveredCells := by
  intro x y n s
  split
  case isTrue past =>
    obtain ⟨pos, past⟩ := past
    exact withAccess_outside pos (by omega)
  case isFalse inside =>
    have inverts := drawnCanvas_inverts x y n s
    exact ⟨_, exec_drw (by omega), fun r c => ⟨inverts.inside (r, c), inverts.outside (r, c)⟩,
      drawn_vf_zero_or_one x y n s, (drawn_vf_eq_one_iff x y n s).trans Prod.exists, rfl, rfl,
      drawn_frame x y n s⟩

/-- Settles O47: the second draw inverts the same cells, which on a clear display are the ones that the
first has set. -/
theorem drawingTwiceRestoresDisplay : Obligations.DrawingTwiceRestoresDisplay := by
  intro x y n s t hx hy h
  obtain ⟨fits, rfl⟩ := exec_drw_next h
  have same : drawnCells x y n (drawn x y n s) = drawnCells x y n s := drawnCells_drawn hx hy
  have first := drawnCanvas_inverts x y n s
  have second := drawnCanvas_inverts x y n (drawn x y n s)
  rw [same] at second
  refine ⟨_, exec_drw fits, fun r c => first.twice second (r, c), fun clear => ?_⟩
  have unlit : ∀ p : Cell, pixel s.display p.1 p.2 ≠ 0x01#8 := fun p => by simp [clear]
  constructor
  case left =>
    refine (drawn_vf_zero_or_one x y n s).resolve_right fun collided => ?_
    obtain ⟨p, -, lit⟩ := (drawn_vf_eq_one_iff x y n s).1 collided
    exact unlit p lit
  case right =>
    rw [drawn_vf_eq_one_iff, same, Prod.exists]
    refine exists_congr fun r => exists_congr fun c => and_iff_right_of_imp fun lit => ?_
    by_contra uncovered
    exact unlit (r, c) ((first.outside (r, c) uncovered).symm.trans lit)

/-- Settles O44: CLS replaces the whole display by the clear one, and writes the redraw flag and PC besides. -/
theorem clsClearsDisplay : Obligations.ClsClearsDisplay :=
  fun _ _ => ⟨_, rfl, pixel_clearDisplay, rfl, rfl, fun _ _ => rfl, rfl, fun _ => rfl, ⟨rfl, rfl⟩,
    ⟨rfl, rfl, rfl⟩, rfl, rfl⟩

end Sys2Proof.Proofs

/-!
PROOFS. The statements about failures and the host's requests (60_exceptions.md). A failing step has one
answer, `requestWith_step_of_fault`; `exists_instrFault_iff` says when an instruction has a failure to raise,
and `requestWith_keeps_inv` goes through the host's requests, from which every run follows by induction.
-/

namespace Sys2Proof.Proofs

open Sys2Proof.Machine Sys2Proof.Machine.Safety

section Exceptions
variable {p : Config.Params} {s : State} {sys sys' : System}

/-! ## What the host is given for a failing step (R501, R502, R516) -/

theorem requestWith_step_of_fault {f : Fault} (h : stepWith p sys.engine = .fault f) :
    sys.requestWith p .step = some ({ engine := sys.engine, loadOpen := false },
      { Response.done with status := f.code, fail := some f.ports }) := by
  simp only [System.requestWith, h, stepResponse]

/-- The lowest address past memory of an access from a 16-bit address on fits the failure port. -/
theorem toNat_ofNat_max_memSize (a : Word) :
    (BitVec.ofNat 16 (max a.toNat memSize)).toNat = max a.toNat memSize := by
  rw [BitVec.toNat_ofNat]
  exact Nat.mod_eq_of_lt (max_lt a.isLt (by decide))

/-! ## When an instruction fails (R502, R503) -/

theorem exists_accessFault_iff {w : Word} {n : Nat} :
    (∃ f, instrFault.accessFault s w n = some f) ↔ 0 < n ∧ memSize < s.i.toNat + n := by
  simp [instrFault.accessFault, lowestBadAddress_eq_some]

theorem exists_keyFault_iff {w : Word} {x : RegIdx} :
    (∃ f, instrFault.keyFault s w x = some f) ↔ 15 < (s.readV x).toNat := by
  simp [instrFault.keyFault]

/-- An instruction has a failure to raise exactly under the condition of its own rule. -/
theorem exists_instrFault_iff (i : Instr) (s : State) :
    (∃ f, instrFault s i = some f) ↔ failsWhen s i := by
  cases i
  case ret | call => simp [instrFault, failsWhen]
  case skp | sknp => exact exists_keyFault_iff
  case drw | ldBVx | storeRegs | loadRegs =>
    refine exists_accessFault_iff.trans ?_
    simp only [failsWhen]
    omega
  all_goals exact ⟨nofun, False.elim⟩

theorem exists_fault_iff_failsWhen (i : Instr) (s : State) :
    (∃ f, exec i s = .fault f) ↔ failsWhen s i :=
  (exists_congr fun _ => exec_eq_fault_iff).trans (exists_instrFault_iff i s)

theorem Answers.next_of_not_fault {o : Option Fault} {r : Result} (h : Answers o r)
    (not_fault : ¬ ∃ f, r = .fault f) : ∃ t, r = .next t := by
  cases h with
  | fails f => exact absurd ⟨f, rfl⟩ not_fault
  | completes t => exact ⟨t, rfl⟩

/-! ## What the host's requests keep (R511) -/

theorem inv_setKeypad {keys : Vector Bool 16} (inv : Inv s) : Inv (s.setKeypad keys) :=
  ⟨inv.pc, inv.slots, inv.memory, inv.pixels⟩

theorem inv_setRedraw {b : Bool} (inv : Inv s) : Inv (s.setRedraw b) :=
  ⟨inv.pc, inv.slots, inv.memory, inv.pixels⟩

theorem inv_loadByte (inv : Inv s) (addr : Word) (data : Byte) : Inv (loadByte s addr data).1 := by
  rcases Nat.lt_or_ge addr.toNat memSize with inside | outside
  · rw [loadByte_inside data inside]
    exact inv_setMem inv (Memory.write_wf data inv.memory inside)
  · rw [loadByte_outside data outside]
    exact inv

/-- A step that completes keeps the invariant; any other leaves the engine as it was (R501). -/
theorem inv_stepResponse (inv : Inv s) : Inv (stepResponse s (stepWith p s)).1 := by
  cases hstep : stepWith p s with
  | next t => exact stepWith_keeps_inv inv hstep
  | fault f => exact inv
  | refused q => exact inv

theorem requestWith_keeps_inv {r : Request} {resp : Response} (inv : Inv sys.engine)
    (h : sys.requestWith p r = some (sys', resp)) (hr : r ≠ .skip) : Inv sys'.engine := by
  cases r with
  | init seed => cases h; exact inv_hardResetWith p sys.engine seed
  | load addr data =>
    rw [System.requestWith] at h
    split at h
    · cases h; exact inv_loadByte inv addr data
    · cases h
  | step => cases h; exact inv_stepResponse inv
  | skip => exact absurd rfl hr
  | keys levels => cases h; exact inv_setKeypad inv
  | clearRedraw => cases h; exact inv_setRedraw inv

theorem run_inv (run : Run p sys) : Inv sys.engine := by
  induction run with
  | launched h => exact resetMeetsInvariant.2 p _ h
  | request _ hr h ih => exact requestWith_keeps_inv ih h hr

end Exceptions

/-! ## The obligations -/

/-- Settles O59: `requestWith_keeps_inv`, and `run_inv` by induction from the launch. -/
theorem requestsKeepInvariant : Obligations.RequestsKeepInvariant := by
  refine fun p => ⟨fun sys sys' r resp inv h => ⟨requestWith_keeps_inv inv h, ?skip⟩,
    fun sys => run_inv, ?keys, ?clearRedraw⟩
  case skip => rintro rfl; cases h; rfl
  case keys => exact fun sys levels => ⟨_, _, rfl, rfl, sys.engine.key_writeKeys levels⟩
  case clearRedraw => exact fun sys => ⟨_, _, rfl, rfl⟩

/-- Settles O11: by where the step failed; a failing instruction's fault names the fetched word, since
`encode` gives back what was decoded. -/
theorem failureRecordsPcAndWord : Obligations.FailureRecordsPcAndWord := by
  rintro sys s f rfl h
  refine ⟨_, _, requestWith_step_of_fault ((stepWith_params _).trans h), rfl, ?_⟩
  obtain hfetch | ⟨w, e, hfetch, hdecode, rfl⟩ | ⟨w, i, hfetch, hdecode, hexec⟩ := stepCycle_fault h
  · obtain ⟨-, rfl⟩ := fetch_error hfetch
    exact ⟨rfl, hfetch, rfl, rfl, _, toNat_ofNat_max_memSize _, rfl⟩
  · exact ⟨rfl, hfetch, ⟨e, hdecode⟩, rfl, rfl⟩
  · obtain ⟨rfl, -⟩ := encode_of_decodeWith hdecode
    cases i
    case ret mid =>
      obtain ⟨empty, rfl⟩ := execRet_fault hexec
      exact ⟨rfl, hfetch, ⟨mid, hdecode⟩, empty, rfl, rfl⟩
    case call nnn =>
      obtain ⟨full, rfl⟩ := execCall_fault hexec
      exact ⟨rfl, hfetch, ⟨nnn, hdecode⟩, full, rfl, rfl⟩
    case skp x =>
      obtain ⟨past, rfl⟩ := execSkp_fault hexec
      exact ⟨rfl, hfetch, past, ⟨x, .inl hdecode, rfl⟩, rfl, _, zextByte_toNat _, rfl⟩
    case sknp x =>
      obtain ⟨past, rfl⟩ := execSknp_fault hexec
      exact ⟨rfl, hfetch, past, ⟨x, .inr hdecode, rfl⟩, rfl, _, zextByte_toNat _, rfl⟩
    case drw x _ _ | ldBVx x | storeRegs x | loadRegs x =>
      obtain ⟨-, -, rfl⟩ := withAccess_fault hexec
      exact ⟨rfl, hfetch, rfl, ⟨x, by simp [hdecode]⟩, rfl, _, toNat_ofNat_max_memSize _, rfl⟩
    all_goals cases exec_eq_fault_iff.1 hexec

/-- Settles O14: `exec_answers` leaves no third outcome, and `failsWhen` says which of the two it is. -/
theorem instructionFailsExactlyWhen : Obligations.InstructionFailsExactlyWhen := by
  refine fun i s => ⟨(exists_fault_iff_failsWhen i s).2, fun holds => ?_⟩
  exact (exec_answers i s).next_of_not_fault (holds ∘ (exists_fault_iff_failsWhen i s).1)

/-- Settles O9: the answer of a failing step has the engine as it was and no beep. -/
theorem failedStepChangesNothing : Obligations.FailedStepChangesNothing :=
  fun _ _ _ h => ⟨_, _, requestWith_step_of_fault h, rfl, rfl⟩

end Sys2Proof.Proofs

/-!
PROOFS. The statements about reset (70_reset_and_hazards.md). `read_resetWith` gives every byte that
`initialize` leaves under any `FONT`; under the default one memory is the canonical list of those bytes,
which is empty. A launched system is a reset one with the program's bytes stored from 0x200 on.
-/

namespace Sys2Proof.Proofs

open Sys2Proof.Machine

section Reset
variable {p : Config.Params} {before : State} {seed : Nat} {program : List Byte}

/-! ## Memory after reset (R600) -/

theorem initial_eq (a : Nat) :
    Memory.initial a = if h : a < 80 then Config.params.font[a] else 0#8 := by
  split <;> simp [Memory.initial, *]

theorem initial_past_font {a : Nat} (h : 80 ≤ a) : Memory.initial a = 0#8 :=
  (initial_eq a).trans (dif_neg (Nat.not_lt.2 h))

/-- Past its end memory reads what it reads unlisted, which is zero there too. -/
theorem read_zeroed {a : Nat} (h : 80 ≤ a) :
    Memory.read (Memory.writeBytes [] 0 (List.replicate memSize 0#8)) a = 0#8 := by
  rw [Memory.read_writeBytes, if_pos (Nat.zero_le a), Memory.read_nil, initial_past_font h,
    List.getElem?_replicate]
  split <;> rfl

theorem read_resetWith (font : Vector Byte 80) (a : Nat) :
    Memory.read (Memory.resetWith font) a = if h : a < 80 then font[a] else 0#8 := by
  unfold Memory.resetWith
  split
  case isTrue inFont =>
    have inList : a < font.toList.length := font.length_toList.symm ▸ inFont
    have written := Memory.read_writeBytes_inside font.toList
      (Memory.writeBytes [] 0 (List.replicate memSize 0#8)) fontBase a inList
    rwa [fontBase, Nat.zero_add, Vector.getElem_toList] at written
  case isFalse past =>
    rw [Memory.read_writeBytes_outside _ _ (by rw [font.length_toList, fontBase]; omega)]
    exact read_zeroed (Nat.le_of_not_lt past)

theorem resetWith_defaultFont : Memory.resetWith Config.params.font = [] :=
  Memory.ext_of_wf (resetWith_canonical _) Memory.reset_wf fun a =>
    (read_resetWith _ a).trans (initial_eq a).symm

/-! ## The launch (R604, R605) -/

theorem loadProgram_of_fits (s : State) (fits : programBase + program.length ≤ memSize) :
    loadProgram s program = some (s.setMem (Memory.writeBytes s.mem programBase program)) := by
  simp only [loadProgram, lowestBadAddress_eq_none.2 (.inr fits)]

theorem exists_launch_iff :
    (∃ sys, System.launch p before seed program = some sys) ↔
      programBase + program.length ≤ memSize :=
  ⟨fun ⟨_, launched⟩ => (System.launch_some launched).1,
    fun fits => ⟨_, Option.map_eq_some_iff.2 ⟨_, loadProgram_of_fits _ fits, rfl⟩⟩⟩

theorem read_loaded_below (font : Vector Byte 80) (program : List Byte) {a : Nat}
    (below : a < programBase) :
    Memory.read (Memory.writeBytes (Memory.resetWith font) programBase program) a =
      if h : a < 80 then font[a] else 0#8 := by
  rw [Memory.read_writeBytes, if_neg (Nat.not_le.2 below), read_resetWith]

theorem read_loaded_from (font : Vector Byte 80) (program : List Byte) {a : Nat}
    (loaded : programBase ≤ a) :
    Memory.read (Memory.writeBytes (Memory.resetWith font) programBase program) a =
      (program[a - programBase]?).getD 0#8 := by
  have pastFont : ¬ a < 80 := Nat.not_lt.2 (le_trans (by decide) loaded)
  rw [Memory.read_writeBytes, if_pos loaded, read_resetWith, dif_neg pastFont]

/-- The first step's word is the program's first two bytes (R603). -/
theorem fetch_loaded {s : State} {font : Vector Byte 80} {hi lo : Byte} {rest : List Byte}
    (pc : s.pc = 0x200#16)
    (mem : s.mem = Memory.writeBytes (Memory.resetWith font) programBase (hi :: lo :: rest)) :
    fetch s = .ok (wordOfBytes hi lo) := by
  have pcNat : s.pc.toNat = programBase := congrArg BitVec.toNat pc
  rw [fetch_inside (by rw [pcNat]; decide), pcNat, mem, read_loaded_from _ _ le_rfl,
    read_loaded_from _ _ (Nat.le_succ _)]
  rfl

end Reset

/-! ## The obligations -/

/-- Settles O56: `read_resetWith` and `resetWith_defaultFont` for the reset, `exists_launch_iff` for which
programs fit, and the reads of `writeBytes` on reset memory for what a launched system holds. -/
theorem resetWithAnyFont : Obligations.ResetWithAnyFont := by
  refine ⟨fun p => read_resetWith p.font, fun p => resetWith_canonical p.font,
    congrArg State.reset.setMem resetWith_defaultFont, fun p before seed program => ⟨?_, ?_⟩⟩
  · have sizes : programBase + program.length ≤ memSize ↔ program.length ≤ 3584 :=
      Nat.add_le_add_iff_left (n := programBase) (k := 3584)
    exact exists_launch_iff.trans sizes
  · intro sys launched
    obtain ⟨-, rfl⟩ := System.launch_some launched
    refine ⟨rfl, rfl, fun a => read_loaded_below p.font program,
      fun a => read_loaded_from p.font program, ?_⟩
    rintro hi lo rest rfl
    exact fetch_loaded rfl rfl

/-- Settles O55: every piece of state but the random source has its value of `State.reset`, whose vectors
are constant and whose memory, with nothing listed, reads as its initial contents. -/
theorem initializeResetsEverything : Obligations.InitializeResetsEverything := by
  rintro s t seed rfl
  refine ⟨rfl, rfl, rfl, rfl, rfl, rfl, fun r => ?registers, fun k h => ?stack, fun k => ?keys,
    pixel_clearDisplay, fun a inFont => ?font, fun a => initial_past_font, rfl⟩
  case registers => exact Vector.getElem_replicate r.isLt
  case stack => exact Vector.getElem_replicate h
  case keys => exact Vector.getElem_replicate k.isLt
  case font => exact (initial_eq a).trans (dif_pos inFont)

end Sys2Proof.Proofs
